-- ==== Sys2Proof/Word.lean ====
section
/-! DEFINITION. The two word types of the engine: a word is 32 bits, a byte 8 bits (R7, R10). -/

namespace Sys2Proof

/-- A word: an unsigned 32-bit value, bit 31 the most significant (R10). -/
abbrev Word := BitVec 32

/-- A byte: an unsigned 8-bit value, bit 7 the most significant (R10). -/
abbrev Byte := BitVec 8

end Sys2Proof
end

