-- ==== Sys2Proof/Syntax.lean ====
section
/-! DEFINITION. The instructions: the two host commands and the eight control words of spec/opcode_table.json, one
constructor a row; and the two kinds of code word that carry them. -/

namespace Sys2Proof

/-- The ten instructions of the opcode table (30_encoding.md, R81 and R84). -/
inductive Instr where
  /-- `NOP`, host command; its 64 argument bits are ignored but are part of the word (R81, R178). -/
  | nop (arg : BitVec 64)
  /-- `HASH len`, host command: start an operation on the first `len` message bytes (R81, R172). -/
  | hash (len : BitVec 64)
  /-- `WAIT`, the control word that means: no micro-operation (R84, R179). -/
  | wait
  /-- `INIT`, micro-operation of the driver (R84, R173). -/
  | init
  /-- `PADBLK`, micro-operation of the padder (R84, R126). -/
  | padblk
  /-- `LDW t`, micro-operation of the scheduler, t = 0 .. 15 (R84, R143). -/
  | ldw (t : Fin 16)
  /-- `EXPW t`, micro-operation of the scheduler, t = 16 .. 63 (R84, R144); `Instr.wellFormed` holds the lower bound. -/
  | expw (t : Fin 64)
  /-- `LDV`, micro-operation of the compressor (R84, R151). -/
  | ldv
  /-- `RND j`, micro-operation of the compressor, j = 0 .. 63 (R84, R153). -/
  | rnd (j : Fin 64)
  /-- `FFWD`, micro-operation of the compressor (R84, R155). -/
  | ffwd
  deriving DecidableEq, Repr

/-- The two kinds of code word: the 66-bit word on the host's command port (format C, R80) and the 9-bit control word
of the sequencer (format U, R83). -/
inductive CodeWord where
  | command (w : BitVec 66)
  | control (w : BitVec 9)
  deriving DecidableEq, Repr

/-- Why a code word is no instruction. -/
inductive Reject where
  /-- A command word with `op` = 10 or 11 (R82). -/
  | reservedCommand (w : BitVec 66)
  /-- One of the 379 control words outside R84 (R85). -/
  | reservedControl (w : BitVec 9)
  deriving DecidableEq, Repr

end Sys2Proof
end

