-- ==== Sys2Proof/WellFormed.lean ====
section
/-! DEFINITION. Which instructions have an encoding: all, but for `EXPW t` with t below 16. -/

namespace Sys2Proof

/-- An instruction has an encoding (R84): the index of `EXPW` is 16 .. 63; every other operand is bounded by its type. -/
def Instr.wellFormed : Instr → Bool
  | .nop _ => true
  | .hash _ => true
  | .wait => true
  | .init => true
  | .padblk => true
  | .ldw _ => true
  | .expw t => decide (16 ≤ t.val)
  | .ldv => true
  | .rnd _ => true
  | .ffwd => true

end Sys2Proof
end

