-- ==== Sys2Proof/Decode.lean ====
section
/-! DEFINITION. Decoding a command word (R80 to R82) and a control word (R83 to R85), total, rejecting by name; the
encoder; and the table's numbering of the two formats. -/

namespace Sys2Proof

/-- A control word whose `idx` must be 0: every other index value is reserved (R84, R85). -/
def indexZero (w : BitVec 9) (i : Instr) : Except Reject Instr :=
  if w.extractLsb' 0 6 = 0 then .ok i else .error (.reservedControl w)

/-- `LDW t` takes t = 0 .. 15 in `idx`; 16 .. 63 are reserved (R84, R85). -/
def indexLdw (w : BitVec 9) : Except Reject Instr :=
  if h : (w.extractLsb' 0 6).toNat < 16 then .ok (.ldw ⟨(w.extractLsb' 0 6).toNat, h⟩)
  else .error (.reservedControl w)

/-- `EXPW t` takes t = 16 .. 63 in `idx`; 0 .. 15 are reserved (R84, R85). -/
def indexExpw (w : BitVec 9) : Except Reject Instr :=
  if 16 ≤ (w.extractLsb' 0 6).toNat then .ok (.expw ⟨(w.extractLsb' 0 6).toNat, (w.extractLsb' 0 6).isLt⟩)
  else .error (.reservedControl w)

/-- The control word map (R84): `uop` in bits 8:6, `idx` in bits 5:0. -/
def decodeControl (w : BitVec 9) : Except Reject Instr :=
  match (w.extractLsb' 6 3).toNat with
  | 0 => indexZero w .wait
  | 1 => indexZero w .init
  | 2 => indexZero w .padblk
  | 3 => indexLdw w
  | 4 => indexExpw w
  | 5 => indexZero w .ldv
  | 6 => .ok (.rnd ⟨(w.extractLsb' 0 6).toNat, (w.extractLsb' 0 6).isLt⟩)
  | _ => indexZero w .ffwd

/-- The host opcode map (R81): `op` in bits 65:64, `arg` in bits 63:0; `op` 10 and 11 are reserved (R82). -/
def decodeCommand (w : BitVec 66) : Except Reject Instr :=
  match (w.extractLsb' 64 2).toNat with
  | 0 => .ok (.nop (w.extractLsb' 0 64))
  | 1 => .ok (.hash (w.extractLsb' 0 64))
  | _ => .error (.reservedCommand w)

/-- Decoding, total on every code word. -/
def decode : CodeWord → Except Reject Instr
  | .command w => decodeCommand w
  | .control w => decodeControl w

/-! ## The encoder -/

/-- A command word from its two fields (R80). -/
def commandWord (op : BitVec 2) (arg : BitVec 64) : CodeWord := .command (op ++ arg)

/-- A control word from its two fields (R83). -/
def controlWordOf (uop : BitVec 3) (idx : BitVec 6) : CodeWord := .control (uop ++ idx)

/-- The code word of an instruction (R81, R84); for `EXPW t` with t below 16 it is a reserved word. -/
def encode : Instr → CodeWord
  | .nop arg => commandWord 0b00 arg
  | .hash len => commandWord 0b01 len
  | .wait => controlWordOf 0b000 0
  | .init => controlWordOf 0b001 0
  | .padblk => controlWordOf 0b010 0
  | .ldw t => controlWordOf 0b011 (BitVec.ofNat 6 t.val)
  | .expw t => controlWordOf 0b100 (BitVec.ofNat 6 t.val)
  | .ldv => controlWordOf 0b101 0
  | .rnd j => controlWordOf 0b110 (BitVec.ofNat 6 j.val)
  | .ffwd => controlWordOf 0b111 0

/-! ## The table's numbering -/

/-- The code word of a table row: rows of 9 bits (at most 16 in whole bytes) are control words, rows of 66 bits (72 in
whole bytes) command words. Bit 0 of `w` is bit 0 of the word; a number too large for the format is no word. -/
def tableCodeWord (nbits w : Nat) : Option CodeWord :=
  if nbits ≤ 16 then
    if w < 2 ^ 9 then some (.control (BitVec.ofNat 9 w)) else none
  else
    if w < 2 ^ 66 then some (.command (BitVec.ofNat 66 w)) else none

/-- The instruction the decoder reads from a table row's bits; none where it refuses. -/
def decodeTableWord (nbits w : Nat) : Option Instr :=
  match tableCodeWord nbits w with
  | some c =>
    match decode c with
    | .ok i => some i
    | .error _ => none
  | none => none

end Sys2Proof
end

