-- ==== Sys2Proof/Machine/Memory.lean ====
section
/-! DEFINITION. The bytes of the message space as a list of cells in one canonical form: addresses strictly rising and
no cell that holds 0, which is what an unlisted address reads as. With the extent beside it, each such list is one
content of `MSG` (R51): an unlisted address below the extent is a message byte of value 0. -/

namespace Sys2Proof.Machine

/-- The byte at an address; 0 where no cell is listed. -/
def Memory.read : List Host.Cell → Nat → Byte
  | [], _ => 0
  | (a, b) :: m, addr => if a = addr then b else Memory.read m addr

/-- Put a byte in front of the cells of higher addresses; 0 is not listed. -/
def Memory.cons (addr : Nat) (b : Byte) (m : List Host.Cell) : List Host.Cell :=
  if b = 0 then m else (addr, b) :: m

/-- Write one byte, keeping the canonical form. -/
def Memory.write : List Host.Cell → Nat → Byte → List Host.Cell
  | [], addr, b => Memory.cons addr b []
  | (a, c) :: m, addr, b =>
    if a < addr then (a, c) :: Memory.write m addr b
    else if a = addr then Memory.cons addr b m
    else Memory.cons addr b ((a, c) :: m)

/-- The cells of a byte sequence whose first byte stands at address `base`. -/
def Memory.ofBytes : Nat → List Byte → List Host.Cell
  | _, [] => []
  | base, b :: bs => Memory.cons base b (Memory.ofBytes (base + 1) bs)

/-- Addresses strictly rising from `low` on, below `high`, and no cell of value 0. -/
def Memory.wfFrom : Nat → Nat → List Host.Cell → Bool
  | _, _, [] => true
  | low, high, (a, b) :: m => decide (low ≤ a) && decide (a < high) && decide (b ≠ 0) && Memory.wfFrom (a + 1) high m

/-- The canonical form of the cells of a message space of `extent` bytes. -/
def Memory.wf (extent : Nat) (m : List Host.Cell) : Bool := Memory.wfFrom 0 extent m

end Sys2Proof.Machine
end

