-- ==== Sys2Proof/Machine/Primitives.lean ====
section
/-! DEFINITION. The word primitives of 40_primitives.md (R100 to R111) and the block count (R121). Word addition is
the `+` of `BitVec 32`, which is addition modulo 2^32 (R100); `xor`, `AND`, `NOT` are its `^^^`, `&&&`, `~~~` (R103). -/

namespace Sys2Proof.Machine

/-- `rotr(x, n)`: 32-bit right rotation (R101). -/
def rotr (x : Word) (n : Nat) : Word := x.rotateRight n

/-- `x >> n`: logical right shift (R102). -/
def shr (x : Word) (n : Nat) : Word := x >>> n

/-- Small sigma 0 (R104). -/
def ssig0 (x : Word) : Word := rotr x 7 ^^^ rotr x 18 ^^^ shr x 3

/-- Small sigma 1 (R105). -/
def ssig1 (x : Word) : Word := rotr x 17 ^^^ rotr x 19 ^^^ shr x 10

/-- Big sigma 0 (R106). -/
def bsig0 (x : Word) : Word := rotr x 2 ^^^ rotr x 13 ^^^ rotr x 22

/-- Big sigma 1 (R107). -/
def bsig1 (x : Word) : Word := rotr x 6 ^^^ rotr x 11 ^^^ rotr x 25

/-- Choose (R108). -/
def ch (x y z : Word) : Word := (x &&& y) ^^^ (~~~x &&& z)

/-- Majority (R109). -/
def maj (x y z : Word) : Word := (x &&& y) ^^^ (x &&& z) ^^^ (y &&& z)

/-- `be32`: four bytes to a word, the first the most significant (R110). -/
def be32 (b0 b1 b2 b3 : Byte) : Word := b0 ++ b1 ++ b2 ++ b3

/-- Byte `m` of a value of `8 * k` bits, byte 0 the most significant. -/
def beByte {w : Nat} (k : Nat) (x : BitVec w) (m : Nat) : Byte := x.extractLsb' (8 * (k - 1 - m)) 8

/-- `be32bytes`: a word to four bytes, most significant first (R111). -/
def be32bytes (x : Word) : Vector Byte 4 := Vector.ofFn fun m => beByte 4 x m.val

/-- `be64bytes`: a 64-bit number to eight bytes, most significant first (R111). -/
def be64bytes (x : BitVec 64) : Vector Byte 8 := Vector.ofFn fun m => beByte 8 x m.val

/-- The number of blocks of a message of `len` bytes (R121). -/
def nblkOf (len : Nat) : Nat := (len + 8) / 64 + 1

end Sys2Proof.Machine
end

