-- ==== Sys2Proof/Config.lean ====
section
/-! DEFINITION. What is fixed for the whole machine, and the free values: constants with no body that stand for the
values the spec leaves unspecified, so that no proof can rest on one of them. -/

namespace Sys2Proof.Config

/-- `LEN_LIMIT`: the first message length outside the domain, 2^61 bytes (R8, R9). -/
def lenLimit : Nat := 2 ^ 61

/-- The default of the parameter `CAP_BYTES`: no limit below the domain limit (R8, R203, D13). -/
def defaultCap : Fin (2 ^ 61) := ⟨2 ^ 61 - 1, by decide⟩

/-! ## Free values

DESIGN CHOICE (notes/assumptions/4.md, 5.md, 6.md): each of these is a value the spec calls unspecified or does not state. -/

/-- The words that the registers `H`, `V`, `W` hold after the `RESET` input, by draw number (R37, R230). -/
opaque freeWord : Nat → BitVec 32

/-- The bytes that `BLK` holds after the `RESET` input, by draw number (R37, R230). -/
opaque freeByte : Nat → BitVec 8

/-- The value that `LEN` holds after the `RESET` input, by draw number (R37, R230). -/
opaque freeLen : Nat → BitVec 64

/-- The values that `N` and `NBLK` hold after the `RESET` input, by draw number (R37, R230). -/
opaque freeCount : Nat → BitVec 56

/-- What a 56-bit block counter receives when the natural number to be stored does not fit it (R35, R112: it never
happens inside the domain, and the spec states no value outside). -/
opaque freeWideCount : Nat → BitVec 56

/-- The 64-bit length field of a length whose bit count does not fit 64 bits (R112: never formed inside the domain). -/
opaque freeBitLength : BitVec 64 → BitVec 64

/-- A byte of the padded buffer at an index past its end, where R122 states no value. -/
opaque freePadByte : Nat → BitVec 8

/-- What a read of the word view of the digest sees while it is not valid, by read number and word (R32, U5). -/
opaque freeDigestWord : Nat → Fin 8 → BitVec 32

/-- What a read of the byte view of the digest sees while it is not valid, by read number and byte (R32, U5). -/
opaque freeDigestByte : Nat → Fin 32 → BitVec 8

end Sys2Proof.Config
end

