-- ==== Sys2Proof/Machine/State.lean ====
section
/-! DEFINITION. The state of the engine as plain data, the moves of its two agents, the reasons a step can stop, and
the state after reset. -/

namespace Sys2Proof.Machine

/-- The four values of `ST` (R29); their 2-bit codes are `Status.code` (R86). -/
inductive Status where
  /-- No operation since reset. -/
  | idle
  /-- An operation is in progress. -/
  | busy
  /-- The last operation completed and `H` holds its digest. -/
  | done
  /-- The last `HASH` was refused with a fault; no digest exists. -/
  | error
  deriving DecidableEq, Repr

/-- The eight values of `UOP` (R30); their 3-bit codes are `Uop.code` (R84). -/
inductive Uop where
  | wait | init | padblk | ldw | expw | ldv | rnd | ffwd
  deriving DecidableEq, Repr

/-- The four values of `ERR` (R31); their 2-bit codes are `ErrCode.code` (R87). -/
inductive ErrCode where
  /-- 0: none. -/
  | noError
  /-- 1: LENGTH_OVERFLOW (R201). -/
  | lengthOverflow
  /-- 2: LENGTH_MISMATCH (R202). -/
  | lengthMismatch
  /-- 3: ALLOCATION_FAILURE (R203). -/
  | allocationFailure
  deriving DecidableEq, Repr

/-- One atomic step of one of the two agents (R15). -/
inductive Move where
  /-- The engine takes its step (R174). -/
  | engine
  /-- The host presents one command word (R33, R80). -/
  | command (w : BitVec 66)
  /-- The host applies the `RESET` input (R230). -/
  | reset
  /-- The host writes one byte of the message space (R15, R50). -/
  | write (addr : Nat) (b : Byte)
  /-- The host makes a byte sequence available as the message space: contents and extent (R8, R90, R233).
  DEDUCED (notes/assumptions/9.md). -/
  | bind (m : List Byte)
  deriving DecidableEq, Repr

/-- The state of one engine, its message space and parameters, and the moves to come. -/
structure State where
  /-- `H[0..7]`, the hash state (R20). -/
  h : Vector Word 8
  /-- `V[0..7]` = a .. h, the working variables (R21). -/
  v : Vector Word 8
  /-- `W[0..63]`, the message schedule (R22). -/
  w : Vector Word 64
  /-- `BLK[0..63]`, the block buffer (R25). -/
  blk : Vector Byte 64
  /-- `LEN`, message length in bytes (R26). -/
  len : BitVec 64
  /-- `NBLK`, number of blocks of the message (R27). -/
  nblk : BitVec 56
  /-- `N`, index of the block being processed (R28). -/
  n : BitVec 56
  /-- `ST`, the status (R29). -/
  st : Status
  /-- `UOP`, the next micro-operation (R30). -/
  uop : Uop
  /-- `IDX`, the index of the next micro-operation (R30). -/
  idx : BitVec 6
  /-- `ERR`, the cause of the last fault (R31). -/
  err : ErrCode
  /-- `MSG`, the bytes of the message space, in the canonical form `Memory.wf` (R50, R51). -/
  msg : List Host.Cell
  /-- `MSG_EXTENT`, how many bytes the host has made available (R8). -/
  msgExtent : Fin (2 ^ 64)
  /-- `CAP_BYTES`, the largest message length the implementation has resources for (R8). -/
  capBytes : Fin (2 ^ 61)
  /-- The model's own: how many free values the `RESET` input has drawn (notes/assumptions/4.md). -/
  draws : Nat
  /-- The model's own: the moves to come, first first; when the list is empty the engine moves
  (notes/assumptions/8.md). -/
  moves : List Move
  deriving DecidableEq, Repr

/-- What stops the machine with a fault. The three faults of the hardware (60_exceptions.md) are not here: they are
next states, with `ST` = ERROR. -/
inductive Fault where
  /-- `PADBLK` reads a message byte at an index that does not exist (R52: defined only below `MSG_EXTENT`). Safe; no
  state that meets `State.Inv` raises it. -/
  | readOutsideMessage
  /-- The host writes a message byte at an index that does not exist (R50: 0 .. `MSG_EXTENT` - 1). Safe. -/
  | writeOutsideMessage
  deriving DecidableEq, Repr

/-- What stops the machine because the spec gives no meaning. -/
inductive Refusal where
  /-- An instruction of the table without a meaning yet. Safe. -/
  | notModelled (mnemonic : String)
  /-- The sequencer holds, or `EXPW` is given, a reserved control word (R85: a model must refuse it). Safe; no state
  that meets `State.Inv` raises it. -/
  | reservedControlWord
  /-- The host binds a message shorter than `LEN` while an operation on `LEN` bytes is in progress: the spec gives the
  host no such step (R15, R236). Safe. -/
  | messageWithdrawn
  /-- The host binds 2^64 bytes or more: outside the range of `MSG_EXTENT` (R8). Safe. -/
  | messageTooLong
  deriving DecidableEq, Repr

/-- The state after reset (R37). `ST`, `UOP`, `IDX`, `ERR` are the spec's; the data registers are unspecified there
and zero here, DESIGN CHOICE (notes/assumptions/1.md); no message byte is available and `CAP_BYTES` has its default
(notes/assumptions/2.md, 3.md). -/
def State.reset : State where
  h := Vector.replicate 8 0
  v := Vector.replicate 8 0
  w := Vector.replicate 64 0
  blk := Vector.replicate 64 0
  len := 0
  nblk := 0
  n := 0
  st := .idle
  uop := .wait
  idx := 0
  err := .noError
  msg := []
  msgExtent := ⟨0, by decide⟩
  capBytes := Config.defaultCap
  draws := 0
  moves := []

end Sys2Proof.Machine
end

