-- ==== Sys2Proof/Machine/Operands.lean ====
section
/-! DEFINITION. What the micro-operations read: the control word in the sequencer, the bytes of the padded buffer, the
words of the block, the terms of the schedule, and the round (R75, R83, R122, R141, R142, R152). -/

namespace Sys2Proof.Machine

/-! ## The control word -/

/-- The 3-bit code of `UOP` (R84). -/
def Uop.code : Uop → BitVec 3
  | .wait => 0b000
  | .init => 0b001
  | .padblk => 0b010
  | .ldw => 0b011
  | .expw => 0b100
  | .ldv => 0b101
  | .rnd => 0b110
  | .ffwd => 0b111

/-- The `UOP` value of a 3-bit code (R84). -/
def Uop.ofCode (c : BitVec 3) : Uop :=
  match c.toNat with
  | 0 => .wait
  | 1 => .init
  | 2 => .padblk
  | 3 => .ldw
  | 4 => .expw
  | 5 => .ldv
  | 6 => .rnd
  | _ => .ffwd

/-- (`UOP`, `IDX`) read as one value, the control word (R83). -/
def State.controlWord (s : State) : BitVec 9 := s.uop.code ++ s.idx

/-! ## The padded buffer -/

/-- `LEN x 8` as a 64-bit number (R55, R72). It fits for every length of the domain; outside it the engine never forms
the product and the value is free (notes/assumptions/6.md). -/
def bitLength (len : BitVec 64) : BitVec 64 :=
  if len.toNat * 8 < 2 ^ 64 then BitVec.ofNat 64 (len.toNat * 8) else Config.freeBitLength len

/-- `P(i)`, byte `i` of the padded buffer of `total` bytes (R122). Past its end the spec states no value
(notes/assumptions/6.md); where `total` is not the size that R121 gives the length, which no operation has, the first
case that applies decides (notes/assumptions/7.md). -/
def padByte (msg : Nat → Byte) (len : BitVec 64) (total i : Nat) : Byte :=
  if total ≤ i then Config.freePadByte i
  else if i < len.toNat then msg i
  else if i = len.toNat then 0x80
  else if i < total - 8 then 0x00
  else (bitLength len).extractLsb' (8 * (total - 1 - i)) 8

/-- Block `n` of the padded buffer (R71, R125). Irreducible, so that no proof unfolds its 64 bytes by accident:
`padBlock_get` reads one. -/
@[irreducible] def padBlock (msg : Nat → Byte) (len : BitVec 64) (total n : Nat) : Vector Byte 64 :=
  Vector.ofFn fun i => padByte msg len total (64 * n + i.val)

/-- The message space as a function of the index (R51); `State.messageReads` says where it is defined. -/
def State.message (s : State) : Nat → Byte := Memory.read s.msg

/-- T = 64 x `NBLK`, the size of the padded buffer in bytes, from the register (R38, R121; notes/assumptions/7.md). -/
def State.paddedBytes (s : State) : Nat := 64 * s.nblk.toNat

/-- The message bytes that `PADBLK` reads, in the order it reads them: the bytes of the current block below `LEN`,
each once, ascending (R59, R126). -/
def State.messageReads (s : State) : List Nat :=
  ((List.range 64).map (64 * s.n.toNat + ·)).filter fun a => decide (a < s.paddedBytes ∧ a < s.len.toNat)

/-- Every byte that `PADBLK` reads exists (R52). -/
def State.messageReadable (s : State) : Bool := s.messageReads.all fun a => decide (a < s.msgExtent.val)

/-! ## The block and the schedule -/

/-- Word `t` of a block, big-endian (R54, R71, R141). -/
def blockWord (blk : Vector Byte 64) (t : Fin 16) : Word :=
  be32 (blk[4 * t.val]'(by omega)) (blk[4 * t.val + 1]'(by omega))
    (blk[4 * t.val + 2]'(by omega)) (blk[4 * t.val + 3]'(by omega))

/-- The schedule recurrence at index `t`, for t = 16 .. 63 (R142). -/
def scheduleWord (w : Vector Word 64) (t : Fin 64) : Word :=
  ssig1 (w[t.val - 2]'(by omega)) + w[t.val - 7]'(by omega)
    + ssig0 (w[t.val - 15]'(by omega)) + w[t.val - 16]'(by omega)

/-! ## The round -/

/-- `T1` of a round with constant `kj` and schedule word `wj` (R152). -/
def temp1 (kj wj : Word) (v : Vector Word 8) : Word := v[7] + bsig1 v[4] + ch v[4] v[5] v[6] + kj + wj

/-- `T2` of a round (R152). -/
def temp2 (v : Vector Word 8) : Word := bsig0 v[0] + maj v[0] v[1] v[2]

/-- The round with constant `kj` and schedule word `wj`: one simultaneous assignment (R152). -/
def roundWith (kj wj : Word) (v : Vector Word 8) : Vector Word 8 :=
  #v[temp1 kj wj v + temp2 v, v[0], v[1], v[2], v[3] + temp1 kj wj v, v[4], v[5], v[6]]

/-- Round `j`, with `K[j]` and `W[j]` (R152, R154). -/
def roundStep (j : Fin 64) (w : Vector Word 64) (v : Vector Word 8) : Vector Word 8 := roundWith K[j] w[j] v

/-- The feed-forward: elementwise sum modulo 2^32 (R155). -/
def feedForward (h v : Vector Word 8) : Vector Word 8 :=
  #v[h[0] + v[0], h[1] + v[1], h[2] + v[2], h[3] + v[3], h[4] + v[4], h[5] + v[5], h[6] + v[6], h[7] + v[7]]

end Sys2Proof.Machine
end

