-- ==== Sys2Proof/Machine/Flags.lean ====
section
/-! DEFINITION. The flag-like state: the codes of `ST` and `ERR` (R86, R87), the check of a length that decides the
fault (R201 to R206), the host-visible outputs (R32, R56), and the control words a sequencer may hold (R84). There are
no arithmetic flags (R34). -/

namespace Sys2Proof.Machine

/-- The 2-bit code of `ST` (R86). -/
def Status.code : Status → BitVec 2
  | .idle => 0b00
  | .busy => 0b01
  | .done => 0b10
  | .error => 0b11

/-- The 2-bit code of `ERR` (R87, R205). -/
def ErrCode.code : ErrCode → BitVec 2
  | .noError => 0b00
  | .lengthOverflow => 0b01
  | .lengthMismatch => 0b10
  | .allocationFailure => 0b11

/-- The document's two classes of fault (R205). -/
inductive FaultClass where
  | invalidArgument
  | allocationFailure
  deriving DecidableEq, Repr

/-- The class of a cause; none for the code 0 (R205). -/
def ErrCode.faultClass : ErrCode → Option FaultClass
  | .noError => none
  | .lengthOverflow => some .invalidArgument
  | .lengthMismatch => some .invalidArgument
  | .allocationFailure => some .allocationFailure

/-- The cause for which a `HASH len` faults: the first of the three that applies, in the order of R206; `noError` when
none applies (R201, R202, R203). -/
def lengthCheck (len extent cap : Nat) : ErrCode :=
  if Config.lenLimit ≤ len then .lengthOverflow
  else if extent < len then .lengthMismatch
  else if cap < len then .allocationFailure
  else .noError

/-! ## The outputs -/

/-- The output `STATUS` (R32). -/
def State.status (s : State) : BitVec 2 := s.st.code

/-- The output `ERRCODE` (R32). -/
def State.errcode (s : State) : BitVec 2 := s.err.code

/-- The output `DIGEST_VALID` (R32). -/
def State.digestValid (s : State) : BitVec 1 := if s.st = .done then 1 else 0

/-- Read number `r` of `DIGEST_W[k]`: `H[k]` while valid, any value at any other time (R32, notes/assumptions/5.md). -/
def State.digestWord (s : State) (r : Nat) (k : Fin 8) : Word :=
  if s.st = .done then s.h[k] else Config.freeDigestWord r k

/-- Read number `r` of `DIGEST_B[i]`: byte `i mod 4` of `H[i div 4]`, most significant first (R56, R73), while valid. -/
def State.digestByte (s : State) (r : Nat) (i : Fin 32) : Byte :=
  if s.st = .done then beByte 4 (s.h[i.val / 4]'(by omega)) (i.val % 4) else Config.freeDigestByte r i

end Sys2Proof.Machine
end

