-- ==== Sys2Proof/Machine/Ops.lean ====
section
/-! DEFINITION. The shared operations: one named update for each register, the sequencer's `SEQ <-`, starting an
operation, fault entry (R204), the narrowing of a block count, and fetching and placing a code word. -/

namespace Sys2Proof.Machine

/-! ## Updates -/

/-- `H <- x`. -/
def State.setH (s : State) (x : Vector Word 8) : State := { s with h := x }

/-- `V <- x`. -/
def State.setV (s : State) (x : Vector Word 8) : State := { s with v := x }

/-- `W[t] <- x`. -/
def State.setW (s : State) (t : Fin 64) (x : Word) : State := { s with w := s.w.set t.val x }

/-- `BLK <- x`. -/
def State.setBlk (s : State) (x : Vector Byte 64) : State := { s with blk := x }

/-- `LEN <- x`. -/
def State.setLen (s : State) (x : BitVec 64) : State := { s with len := x }

/-- `NBLK <- x`. -/
def State.setNblk (s : State) (x : BitVec 56) : State := { s with nblk := x }

/-- `N <- x`. -/
def State.setN (s : State) (x : BitVec 56) : State := { s with n := x }

/-- `ST <- x`. -/
def State.setSt (s : State) (x : Status) : State := { s with st := x }

/-- `ERR <- x`. -/
def State.setErr (s : State) (x : ErrCode) : State := { s with err := x }

/-- `SEQ <- (u, i)`: the next micro-operation and its index (R12, R30). -/
def State.seq (s : State) (u : Uop) (i : BitVec 6) : State := { s with uop := u, idx := i }

/-- The moves to come. -/
def State.setMoves (s : State) (ms : List Move) : State := { s with moves := ms }

/-! ## Starting an operation, and faults -/

/-- What a `HASH` does that raises no fault, after `LEN` is written (R172). -/
def State.startOperation (s : State) : State := ((s.setErr .noError).setSt .busy).seq .init 0

/-- Fault entry: `raise InvalidArgument(c)` and `raise AllocationFailure(c)` both do this (R204). There is no handler
and no saved state; the fault is left by the next accepted `HASH` or by `RESET` (R209). -/
def State.raiseFault (s : State) (c : ErrCode) : State := ((s.setErr c).setSt .error).seq .wait 0

/-- Store a natural number in a 56-bit block counter. Every count of the domain fits (R35); for one that does not the
spec states no value, and it is free (notes/assumptions/6.md). -/
def narrowCount (x : Nat) : BitVec 56 := if x < 2 ^ 56 then BitVec.ofNat 56 x else Config.freeWideCount x

/-! ## Fetching and placing a code word -/

/-- The micro-operation the engine's step executes: while `ST` = BUSY the one in (`UOP`, `IDX`) (R174); at any other
time none, which is the control word `WAIT` (R179). -/
def State.fetchControl (s : State) : Except Reject Instr :=
  if s.st = .busy then decode (.control s.controlWord) else .ok .wait

/-- Put a control word where the engine's next step fetches it. A word other than `WAIT` runs only while BUSY. -/
def State.placeControl (s : State) (w : BitVec 9) : State :=
  let t := s.seq (Uop.ofCode (w.extractLsb' 6 3)) (w.extractLsb' 0 6)
  let t := if w = 0 then t else t.setSt .busy
  match s.moves with
  | [] => t
  | ms => t.setMoves (.engine :: ms)

/-- Present a command word as the host's next move. -/
def State.placeCommand (s : State) (w : BitVec 66) : State := s.setMoves (.command w :: s.moves)

/-- Place a code word given in the table's numbering. -/
def State.placeTableWord (s : State) (nbits w : Nat) : State :=
  if nbits ≤ 16 then s.placeControl (BitVec.ofNat 9 w) else s.placeCommand (BitVec.ofNat 66 w)

end Sys2Proof.Machine
end

