-- ==== Sys2Proof/Machine/Command.lean ====
section
/-! DEFINITION. The host commands `NOP` and `HASH` (44_sequencer.md section 2). -/

namespace Sys2Proof.Machine

/-- `NOP`: nothing, in any `ST` (R178). -/
def execNop (_arg : BitVec 64) (s : State) : Host.Outcome State Fault Refusal := .next s

/-- An accepted `HASH len`: `LEN` is written first, then the fault of the first cause that applies is raised, or the
operation starts (R172, R204, R206). -/
def acceptHash (len : BitVec 64) (s : State) : State :=
  match lengthCheck len.toNat s.msgExtent.val s.capBytes.val with
  | .noError => (s.setLen len).startOperation
  | c => (s.setLen len).raiseFault c

/-- `HASH len`: accepted in IDLE, DONE and ERROR (R172), ignored while BUSY (R180). -/
def execHash (len : BitVec 64) (s : State) : Host.Outcome State Fault Refusal :=
  if s.st = .busy then .next s else .next (acceptHash len s)

end Sys2Proof.Machine
end

