-- ==== Sys2Proof/Machine/Compressor.lean ====
section
/-! DEFINITION. The micro-operations `LDV`, `RND j` and `FFWD` (43_compressor.md). -/

namespace Sys2Proof.Machine

/-- `LDV`: load the working variables from the hash state (R151). -/
def execLdv (s : State) : Host.Outcome State Fault Refusal := .next ((s.setV s.h).seq .rnd 0)

/-- What follows `RND j` (R153). -/
def State.seqAfterRnd (s : State) (j : Fin 64) : State :=
  if j.val < 63 then s.seq .rnd (BitVec.ofNat 6 (j.val + 1)) else s.seq .ffwd 0

/-- `RND j`: one compression round (R153). -/
def execRnd (j : Fin 64) (s : State) : Host.Outcome State Fault Refusal :=
  .next ((s.setV (roundStep j s.w s.v)).seqAfterRnd j)

/-- What follows `FFWD` when `N` was `n` before it: another block, or completion (R155, R175, R176). -/
def State.seqAfterFfwd (s : State) (n : Nat) : State :=
  if n + 1 < s.nblk.toNat then s.seq .padblk 0 else (s.setSt .done).seq .wait 0

/-- `FFWD`: feed-forward, and advance to the next block or finish (R155). -/
def execFfwd (s : State) : Host.Outcome State Fault Refusal :=
  .next (((s.setH (feedForward s.h s.v)).setN (narrowCount (s.n.toNat + 1))).seqAfterFfwd s.n.toNat)

end Sys2Proof.Machine
end

