-- ==== Sys2Proof/Machine/Driver.lean ====
section
/-! DEFINITION. The control word `WAIT` and the micro-operation `INIT` (44_sequencer.md). -/

namespace Sys2Proof.Machine

/-- `WAIT`: no micro-operation, nothing changes (R179). -/
def execWait (s : State) : Host.Outcome State Fault Refusal := .next s

/-- `INIT`: load the hash state and the block counters (R173). -/
def execInit (s : State) : Host.Outcome State Fault Refusal :=
  .next ((((s.setH IV).setN 0).setNblk (narrowCount (nblkOf s.len.toNat))).seq .padblk 0)

end Sys2Proof.Machine
end

