-- ==== Sys2Proof/Machine/Padder.lean ====
section
/-! DEFINITION. The micro-operation `PADBLK` (41_padder.md). -/

namespace Sys2Proof.Machine

/-- `PADBLK`: load the current block of the padded buffer into the block buffer (R126). A read of a message byte that
does not exist is a fault (R52); no operation comes to one, since `LEN` <= `MSG_EXTENT` (R202). -/
def execPadblk (s : State) : Host.Outcome State Fault Refusal :=
  if s.messageReadable then
    .next ((s.setBlk (padBlock s.message s.len s.paddedBytes s.n.toNat)).seq .ldw 0)
  else .fault .readOutsideMessage

end Sys2Proof.Machine
end

