-- ==== Sys2Proof/Machine/Scheduler.lean ====
section
/-! DEFINITION. The micro-operations `LDW t` and `EXPW t` (42_scheduler.md). -/

namespace Sys2Proof.Machine

/-- What follows `LDW t` (R143). -/
def State.seqAfterLdw (s : State) (t : Fin 16) : State :=
  if t.val < 15 then s.seq .ldw (BitVec.ofNat 6 (t.val + 1)) else s.seq .expw 16

/-- `LDW t`: load schedule word t from the block buffer (R143). -/
def execLdw (t : Fin 16) (s : State) : Host.Outcome State Fault Refusal :=
  .next ((s.setW (t.castLE (by decide)) (blockWord s.blk t)).seqAfterLdw t)

/-- What follows `EXPW t` (R144). -/
def State.seqAfterExpw (s : State) (t : Fin 64) : State :=
  if t.val < 63 then s.seq .expw (BitVec.ofNat 6 (t.val + 1)) else s.seq .ldv 0

/-- `EXPW t`: compute schedule word t (R144). An index below 16 is no instruction (R85). -/
def execExpw (t : Fin 64) (s : State) : Host.Outcome State Fault Refusal :=
  if 16 ≤ t.val then .next ((s.setW t (scheduleWord s.w t)).seqAfterExpw t)
  else .refused .reservedControlWord

end Sys2Proof.Machine
end

