-- ==== Sys2Proof/Machine/Dispatch.lean ====
section
/-! DEFINITION. One arm per instruction: each calls the instruction's meaning. -/

namespace Sys2Proof.Machine

/-- The meaning of every instruction of spec/opcode_table.json. -/
def exec (i : Instr) (s : State) : Host.Outcome State Fault Refusal :=
  match i with
  | .nop arg => Sys2Proof.Machine.execNop arg s
  | .hash len => Sys2Proof.Machine.execHash len s
  | .wait => Sys2Proof.Machine.execWait s
  | .init => Sys2Proof.Machine.execInit s
  | .padblk => Sys2Proof.Machine.execPadblk s
  | .ldw t => Sys2Proof.Machine.execLdw t s
  | .expw t => Sys2Proof.Machine.execExpw t s
  | .ldv => Sys2Proof.Machine.execLdv s
  | .rnd j => Sys2Proof.Machine.execRnd j s
  | .ffwd => Sys2Proof.Machine.execFfwd s

end Sys2Proof.Machine
end

