-- ==== Sys2Proof/Machine/HostMoves.lean ====
section
/-! DEFINITION. The moves of the host that are no instruction: the `RESET` input (R230), a write to the message space,
making a message available, and a reserved command word (R82). -/

namespace Sys2Proof.Machine

/-- `k` words from draw number `d` on. -/
@[irreducible] def freeWords (k d : Nat) : Vector Word k := Vector.ofFn fun i => Config.freeWord (d + i.val)

/-- `k` bytes from draw number `d` on. -/
@[irreducible] def freeBytes (k d : Nat) : Vector Byte k := Vector.ofFn fun i => Config.freeByte (d + i.val)

/-- How many draw numbers one `RESET` uses: one for each word of `H`, `V` and `W`. -/
def drawsPerReset : Nat := 80

/-- The `RESET` input, in any state: the four registers it writes, and every other register unspecified (R230, R231);
the unspecified values are free (notes/assumptions/4.md). -/
def State.applyReset (s : State) : State :=
  { s with
    h := freeWords 8 s.draws
    v := freeWords 8 (s.draws + 8)
    w := freeWords 64 (s.draws + 16)
    blk := freeBytes 64 s.draws
    len := Config.freeLen s.draws
    n := Config.freeCount s.draws
    nblk := Config.freeCount (s.draws + 1)
    st := .idle
    err := .noError
    uop := .wait
    idx := 0
    draws := s.draws + drawsPerReset }

/-- The `RESET` input as a move. -/
def hostReset (s : State) : Host.Outcome State Fault Refusal := .next s.applyReset

/-- The host writes one byte of the message space, at any time (R15, R236), at an index that exists (R50). -/
def hostWrite (addr : Nat) (b : Byte) (s : State) : Host.Outcome State Fault Refusal :=
  if addr < s.msgExtent.val then .next { s with msg := Memory.write s.msg addr b }
  else .fault .writeOutsideMessage

/-- The host makes the byte sequence `m` available as the message space: `MSG[i]` is its byte i, `MSG_EXTENT` its
length (R8, R90, R233; notes/assumptions/9.md). -/
def hostBind (m : List Byte) (s : State) : Host.Outcome State Fault Refusal :=
  if h : m.length < 2 ^ 64 then
    if s.st = .busy ∧ m.length < s.len.toNat then .refused .messageWithdrawn
    else .next { s with msg := Memory.ofBytes 0 m, msgExtent := ⟨m.length, h⟩ }
  else .refused .messageTooLong

/-- A reserved command word is ignored, in any `ST`: nothing changes (R82). -/
def ignoreCommand (s : State) : Host.Outcome State Fault Refusal := .next s

end Sys2Proof.Machine
end

