-- ==== Sys2Proof/Machine/Sequencer.lean ====
section
/-! DEFINITION. The engine's step (R174, R179) and the host's presenting of a command word (R80, R82). -/

namespace Sys2Proof.Machine

/-- The engine's step: execute the micro-operation in the sequencer; a reserved control word is refused (R85). -/
def engineStep (s : State) : Host.Outcome State Fault Refusal :=
  match s.fetchControl with
  | .ok i => exec i s
  | .error _ => .refused .reservedControlWord

/-- The host presents a command word: a legal one has its meaning, a reserved one is ignored (R81, R82). -/
def commandStep (w : BitVec 66) (s : State) : Host.Outcome State Fault Refusal :=
  match decode (.command w) with
  | .ok i => exec i s
  | .error _ => ignoreCommand s

/-- One move, taken off the list, is carried out in the state that remains (R15). -/
def moveStep (m : Move) (s : State) : Host.Outcome State Fault Refusal :=
  match m with
  | .engine => engineStep s
  | .command w => commandStep w s
  | .reset => hostReset s
  | .write addr b => hostWrite addr b s
  | .bind bytes => hostBind bytes s

/-- One atomic step of the two agents: the first of the moves to come, or the engine's when there is none (R15;
notes/assumptions/8.md). -/
def agentStep (s : State) : Host.Outcome State Fault Refusal :=
  match s.moves with
  | [] => engineStep s
  | m :: ms => moveStep m (s.setMoves ms)

end Sys2Proof.Machine
end

