-- ==== Sys2Proof/Machine/Step.lean ====
section
/-! DEFINITION. The step of the machine, and placing an instruction where the next step runs it. -/

namespace Sys2Proof.Machine

/-- One atomic step of the machine (R15). -/
def step (s : State) : Host.Outcome State Fault Refusal := agentStep s

/-- The state with a table row's word placed so that the next step runs it: a control word in (`UOP`, `IDX`), with
`ST` = BUSY unless it is `WAIT`, and a command word on the command port (notes/assumptions/10.md). -/
def State.withFetchWord (s : State) (nbits w : Nat) : State := s.placeTableWord nbits w

end Sys2Proof.Machine
end

