-- ==== Sys2Proof/Machine/Functional.lean ====
section
/-! DEFINITION. The functional level: the document's pure functions `pad`, `expand`, `compress`, `digest` (R14). The
step level must compute the same values (R190). -/

namespace Sys2Proof.Machine

/-- Block `n` of `pad(message, length)` (R120, R125). -/
def padOf (msg : Nat → Byte) (len : BitVec 64) (n : Nat) : Vector Byte 64 :=
  padBlock msg len (64 * nblkOf len.toNat) n

/-- Words 0 .. 15 of the schedule of a block (R141); the others are not yet computed. -/
def loadWords (blk : Vector Byte 64) : Vector Word 64 :=
  Vector.ofFn fun t => if h : t.val < 16 then blockWord blk ⟨t.val, h⟩ else 0

/-- The schedule with its words 16 .. 15 + k computed in ascending order (R142). -/
def expandFrom (w : Vector Word 64) : Nat → Vector Word 64
  | 0 => w
  | k + 1 =>
    if h : 16 + k < 64 then
      (expandFrom w k).set (16 + k) (scheduleWord (expandFrom w k) ⟨16 + k, h⟩)
    else expandFrom w k

/-- `expand(block)` (R140). -/
def expand (blk : Vector Byte 64) : Vector Word 64 := expandFrom (loadWords blk) 48

/-- The working variables after the rounds 0 .. k - 1, in this order (R154). -/
def rounds (w : Vector Word 64) (v : Vector Word 8) : Nat → Vector Word 8
  | 0 => v
  | k + 1 => if h : k < 64 then roundStep ⟨k, h⟩ w (rounds w v k) else rounds w v k

/-- `compress(state, schedule)` (R150). -/
def compress (state : Vector Word 8) (w : Vector Word 64) : Vector Word 8 :=
  feedForward state (rounds w state 64)

/-- The hash state after the blocks 0 .. n - 1 (R170). -/
def hashAfter (msg : Nat → Byte) (len : BitVec 64) : Nat → Vector Word 8
  | 0 => IV
  | n + 1 => compress (hashAfter msg len n) (expand (padOf msg len n))

/-- `digest(message, length)`, for lengths of the domain (R170). -/
def digest (msg : Nat → Byte) (len : BitVec 64) : Vector Word 8 := hashAfter msg len (nblkOf len.toNat)

/-- The public name of `digest` (R171). -/
def hashOf (msg : Nat → Byte) (len : BitVec 64) : Vector Word 8 := digest msg len

end Sys2Proof.Machine
end

