-- ==== Sys2Proof/Safety.lean ====
section
/-! DEFINITION. What the claims call a good state (`State.Inv`), a state in which the step level agrees with the
functional level (`State.Agrees`), a run of the machine, and the parts of the state that a frame names. -/

namespace Sys2Proof.Machine

/-- The invariants the spec states of the machine's state. -/
structure State.Inv (s : State) : Prop where
  /-- The message space is in canonical form and has no cell at or beyond `MSG_EXTENT`. -/
  message : Memory.wf s.msgExtent.val s.msg = true
  /-- `UOP` = WAIT if and only if `ST` is not BUSY (R30). -/
  waits : s.uop = .wait ↔ s.st ≠ .busy
  /-- `ERR` is nonzero if and only if `ST` = ERROR (R31). -/
  cause : s.err ≠ .noError ↔ s.st = .error
  /-- (`UOP`, `IDX`) is one of the legal control words (R84, R85). -/
  legal : (decode (.control s.controlWord)).isOk = true
  /-- The length of an operation in progress passed the three checks (R52, R172). -/
  domain : s.st = .busy → lengthCheck s.len.toNat s.msgExtent.val s.capBytes.val = .noError
  /-- After `INIT` the block counters are those of the length, and `N` < `NBLK` (R27, R28). -/
  blocks : s.st = .busy → s.uop ≠ .init → s.nblk.toNat = nblkOf s.len.toNat ∧ s.n.toNat < s.nblk.toNat
  /-- After the last `FFWD`, `N` = `NBLK` (R28). -/
  finished : s.st = .done → s.n = s.nblk

/-- `W[0 .. k - 1]` are the schedule words of the current block. -/
def State.scheduledTo (s : State) (k : Nat) : Prop :=
  ∀ i : Fin 64, i.val < k → s.w[i] = (expand (padOf s.message s.len s.n.toNat))[i]

/-- `H` is the hash state after the blocks before the current one. -/
def State.hashed (s : State) : Prop := s.h = hashAfter s.message s.len s.n.toNat

/-- The data registers hold what the functional level says, at each point of an operation on the present message. -/
def State.Agrees (s : State) : Prop :=
  match s.st, s.uop with
  | .done, _ => s.h = digest s.message s.len
  | .busy, .padblk => s.hashed
  | .busy, .ldw => s.hashed ∧ s.blk = padOf s.message s.len s.n.toNat ∧ s.scheduledTo s.idx.toNat
  | .busy, .expw => s.hashed ∧ s.scheduledTo s.idx.toNat
  | .busy, .ldv => s.hashed ∧ s.scheduledTo 64
  | .busy, .rnd => s.hashed ∧ s.scheduledTo 64 ∧ s.v = rounds s.w s.h s.idx.toNat
  | .busy, .ffwd => s.hashed ∧ s.scheduledTo 64 ∧ s.v = rounds s.w s.h 64
  | .busy, .init => True
  | .busy, .wait => True
  | .idle, _ => True
  | .error, _ => True

/-- `k` steps of the machine, stopping at the first fault or refusal: `Host.Core.run` of `Sys2Proof.core`. -/
def runSteps : Nat → State → Host.Outcome State Fault Refusal
  | 0, s => .next s
  | k + 1, s =>
    match step s with
    | .next t => runSteps k t
    | .fault r => .fault r
    | .refused r => .refused r

/-- The control word is one of the legal ones (R84). -/
def legalControl (w : BitVec 9) : Bool := (decode (.control w)).isOk

/-- The move that the next step carries out. -/
def State.nextMove (s : State) : Move := s.moves.headD .engine

/-- The next step is the engine's own. -/
def State.engineMoves (s : State) : Prop := s.nextMove = .engine

/-- The engine's registers and outputs are the same in two states: every register of 10_state.md. -/
def State.sameRegisters (s t : State) : Prop :=
  t.h = s.h ∧ t.v = s.v ∧ t.w = s.w ∧ t.blk = s.blk ∧ t.len = s.len ∧ t.nblk = s.nblk ∧ t.n = s.n ∧ t.st = s.st ∧
    t.uop = s.uop ∧ t.idx = s.idx ∧ t.err = s.err

/-- What no instruction touches is the same in two states: the message space byte for byte, the parameters, and the
model's own fields. -/
def State.sameOutside (s t : State) : Prop :=
  (∀ a, t.message a = s.message a) ∧ t.msg = s.msg ∧ t.msgExtent = s.msgExtent ∧ t.capBytes = s.capBytes ∧
    t.draws = s.draws ∧ t.moves = s.moves

end Sys2Proof.Machine
end

