-- ==== Sys2Proof/Certificates/Slice0/Obligations.lean ====
section
/-! DEFINITION. The statements for the provers. Each docstring names the rules of spec/ its statement formalises, or
says that it is the model's own. -/

open Sys2Proof Sys2Proof.Machine

/-! ## Encoding -/

/-- Decoding an encoded well-formed instruction gives it back, for every operand value (R81, R84). -/
def Obligations.DecodingAnEncodedInstructionGivesItBack : Prop :=
  ∀ i : Instr, i.wellFormed = true → decode (encode i) = .ok i

/-- A code word that decodes is the encoding of the well-formed instruction it decodes to: no word of R81 or R84 has
a bit that decoding drops. -/
def Obligations.ADecodedWordIsTheEncodingOfItsInstruction : Prop :=
  ∀ (c : CodeWord) (i : Instr), decode c = .ok i → i.wellFormed = true ∧ encode i = c

/-- R85: which control words are reserved, that they are 512 - 133 = 379, that the engine refuses each, and that no
instruction leaves one in the sequencer when it found a legal one there. -/
def Obligations.ReservedControlWordsAreRefusedAndNeverProduced : Prop :=
  (∀ w : BitVec 9, decode (.control w) = .error (.reservedControl w) ↔
    ((w.extractLsb' 6 3 ∈ [0b000#3, 0b001#3, 0b010#3, 0b101#3, 0b111#3] ∧ w.extractLsb' 0 6 ≠ 0) ∨
      (w.extractLsb' 6 3 = 0b011#3 ∧ 16 ≤ (w.extractLsb' 0 6).toNat) ∨
      (w.extractLsb' 6 3 = 0b100#3 ∧ (w.extractLsb' 0 6).toNat < 16))) ∧
  ((List.range 512).filter fun k => legalControl (BitVec.ofNat 9 k)).length = 133 ∧
  ((List.range 512).filter fun k => !legalControl (BitVec.ofNat 9 k)).length = 379 ∧
  (∀ s : State, s.st = .busy → legalControl s.controlWord = false → engineStep s = .refused .reservedControlWord) ∧
  (∀ (i : Instr) (s t : State), legalControl s.controlWord = true → exec i s = .next t →
    legalControl t.controlWord = true)

/-- Words written out from the tables of R81 and R84 decode to the instructions they stand for. -/
def Obligations.SampleWordsOfEveryFamilyDecode : Prop :=
  decode (.command 0x0ffffffffffffffff#66) = .ok (.nop 0xffffffffffffffff#64) ∧
  decode (.command 0x10000000000000003#66) = .ok (.hash 3) ∧
  decode (.control 0b000000000#9) = .ok .wait ∧
  decode (.control 0b001000000#9) = .ok .init ∧
  decode (.control 0b010000000#9) = .ok .padblk ∧
  decode (.control 0b011001111#9) = .ok (.ldw 15) ∧
  decode (.control 0b100010000#9) = .ok (.expw 16) ∧
  decode (.control 0b101000000#9) = .ok .ldv ∧
  decode (.control 0b110111111#9) = .ok (.rnd 63) ∧
  decode (.control 0b111000000#9) = .ok .ffwd

/-- R82: a command word with `op` = 10 or 11 is ignored in every status: no state changes, exactly as with `NOP`. -/
def Obligations.ReservedCommandWordsAreIgnored : Prop :=
  ∀ (w : BitVec 66) (s : State) (ms : List Move), 2 ≤ (w.extractLsb' 64 2).toNat → s.moves = .command w :: ms →
    decode (.command w) = .error (.reservedCommand w) ∧
    step s = .next { s with moves := ms } ∧
    ∀ arg : BitVec 64, step { s with moves := .command (0b00#2 ++ arg) :: ms } = step s

/-! ## Word primitives -/

/-- R101, R102: bit by bit and as one word, with the worked examples. -/
def Obligations.RotateAndShiftMoveTheBits : Prop :=
  (∀ (x : Word) (n : Nat), 0 < n → n < 32 →
    (∀ i, i < 32 → (rotr x n).getLsbD i = x.getLsbD ((i + n) % 32)) ∧
    (rotr x n).toNat = x.toNat % 2 ^ n * 2 ^ (32 - n) + x.toNat / 2 ^ n ∧
    (∀ i, i < 32 → (shr x n).getLsbD i = if i + n ≤ 31 then x.getLsbD (i + n) else false) ∧
    (shr x n).toNat = x.toNat / 2 ^ n) ∧
  (∀ n, 0 < n → n < 32 → rotr 0 n = 0 ∧ rotr 0xffffffff n = 0xffffffff) ∧
  rotr 0x00000001 7 = 0x02000000 ∧ rotr 0x80000000 7 = 0x01000000 ∧ rotr 0x12345678 7 = 0xf02468ac ∧
  shr 0xffffffff 3 = 0x1fffffff ∧ shr 0x80000000 3 = 0x10000000 ∧ shr 0x00000001 3 = 0 ∧
  shr 0x12345678 10 = 0x00048d15

/-- R104 to R107: each bit of the four sigma functions, with the corner cases and worked examples of the rules. -/
def Obligations.SigmaFunctionsMixTheBits : Prop :=
  (∀ (x : Word) (i : Nat), i < 32 →
    (ssig0 x).getLsbD i =
      ((x.getLsbD ((i + 7) % 32) ^^ x.getLsbD ((i + 18) % 32)) ^^ (decide (i + 3 < 32) && x.getLsbD (i + 3))) ∧
    (ssig1 x).getLsbD i =
      ((x.getLsbD ((i + 17) % 32) ^^ x.getLsbD ((i + 19) % 32)) ^^ (decide (i + 10 < 32) && x.getLsbD (i + 10))) ∧
    (bsig0 x).getLsbD i =
      ((x.getLsbD ((i + 2) % 32) ^^ x.getLsbD ((i + 13) % 32)) ^^ x.getLsbD ((i + 22) % 32)) ∧
    (bsig1 x).getLsbD i =
      ((x.getLsbD ((i + 6) % 32) ^^ x.getLsbD ((i + 11) % 32)) ^^ x.getLsbD ((i + 25) % 32))) ∧
  ssig0 0 = 0 ∧ ssig0 0xffffffff = 0x1fffffff ∧ ssig0 0x00000001 = 0x02004000 ∧ ssig0 0x80000000 = 0x11002000 ∧
  ssig0 0x12345678 = 0xe7fce6ee ∧
  ssig1 0 = 0 ∧ ssig1 0xffffffff = 0x003fffff ∧ ssig1 0x00000001 = 0x0000a000 ∧ ssig1 0x80000000 = 0x00205000 ∧
  ssig1 0x12345678 = 0xa1f78649 ∧
  bsig0 0 = 0 ∧ bsig0 0xffffffff = 0xffffffff ∧ bsig0 0x00000001 = 0x40080400 ∧ bsig0 0x80000000 = 0x20040200 ∧
  bsig0 0x6a09e667 = 0xce20b47e ∧
  bsig1 0 = 0 ∧ bsig1 0xffffffff = 0xffffffff ∧ bsig1 0x00000001 = 0x04200080 ∧ bsig1 0x80000000 = 0x02100040 ∧
  bsig1 0x510e527f = 0x3587272b

/-- R108, R109: each bit of `Ch` and `Maj`, with the corner cases and worked examples of the rules. -/
def Obligations.ChooseAndMajorityBitByBit : Prop :=
  (∀ (x y z : Word) (i : Nat), i < 32 →
    (ch x y z).getLsbD i = (if x.getLsbD i then y.getLsbD i else z.getLsbD i) ∧
    (maj x y z).getLsbD i =
      decide (2 ≤ (x.getLsbD i).toNat + (y.getLsbD i).toNat + (z.getLsbD i).toNat)) ∧
  (∀ x y z : Word,
    ch x y z = (x &&& y) ||| (~~~x &&& z) ∧ ch 0xffffffff y z = y ∧ ch 0 y z = z ∧ ch x y y = y ∧
    maj x y z = maj y x z ∧ maj x y z = maj x z y ∧
    maj x x z = x ∧ maj 0 y z = y &&& z ∧ maj 0xffffffff y z = y ||| z) ∧
  ch 0x510e527f 0x9b05688c 0x1f83d9ab = 0x1f85c98c ∧ maj 0x6a09e667 0xbb67ae85 0x3c6ef372 = 0x3a6fe667

/-- R110, R111: the big-endian conversions as numbers, and that they are inverse. -/
def Obligations.BigEndianConversionsAreInverse : Prop :=
  (∀ b0 b1 b2 b3 : Byte,
    (be32 b0 b1 b2 b3).toNat = b0.toNat * 2 ^ 24 + b1.toNat * 2 ^ 16 + b2.toNat * 2 ^ 8 + b3.toNat ∧
    be32bytes (be32 b0 b1 b2 b3) = #v[b0, b1, b2, b3]) ∧
  (∀ x : Word, be32 (be32bytes x)[0] (be32bytes x)[1] (be32bytes x)[2] (be32bytes x)[3] = x) ∧
  (∀ (x : Word) (m : Fin 4), ((be32bytes x)[m]).toNat = x.toNat / 2 ^ (8 * (3 - m.val)) % 256) ∧
  (∀ (x : BitVec 64) (m : Fin 8), ((be64bytes x)[m]).toNat = x.toNat / 2 ^ (8 * (7 - m.val)) % 256) ∧
  be32 0x61 0x62 0x63 0x80 = 0x61626380 ∧ be32bytes 0xba7816bf = #v[0xba, 0x78, 0x16, 0xbf] ∧
  be64bytes 24 = #v[0, 0, 0, 0, 0, 0, 0, 0x18]

/-! ## Constants, status codes and outputs -/

/-- R23, R24 with G2: `K[j]` and `IV[k]` are the first 32 bits of the fractional parts of the cube roots of the first
64 primes and of the square roots of the first eight. -/
def Obligations.ConstantTablesAreTheRootsOfThePrimes : Prop :=
  let primes := (List.range 312).filter fun p =>
    decide (2 ≤ p) && (List.range p).all fun d => decide (d < 2) || decide (p % d ≠ 0)
  primes.length = 64 ∧
  (∀ j : Fin 64, ∃ m : Nat, m ^ 3 ≤ primes[j]! * 2 ^ 96 ∧ primes[j]! * 2 ^ 96 < (m + 1) ^ 3 ∧
    K[j].toNat = m % 2 ^ 32) ∧
  (∀ k : Fin 8, ∃ m : Nat, m ^ 2 ≤ primes[k]! * 2 ^ 64 ∧ primes[k]! * 2 ^ 64 < (m + 1) ^ 2 ∧
    IV[k].toNat = m % 2 ^ 32)

/-- R86, R87, R205: the codes of `ST` and `ERR`, and the class of each cause. -/
def Obligations.StatusAndErrorCodes : Prop :=
  Status.code .idle = 0 ∧ Status.code .busy = 1 ∧ Status.code .done = 2 ∧ Status.code .error = 3 ∧
  ErrCode.code .noError = 0 ∧ ErrCode.code .lengthOverflow = 1 ∧ ErrCode.code .lengthMismatch = 2 ∧
  ErrCode.code .allocationFailure = 3 ∧
  ErrCode.faultClass .noError = none ∧ ErrCode.faultClass .lengthOverflow = some .invalidArgument ∧
  ErrCode.faultClass .lengthMismatch = some .invalidArgument ∧
  ErrCode.faultClass .allocationFailure = some .allocationFailure ∧
  (∀ s : State, s.status = s.st.code ∧ s.errcode = s.err.code ∧ (s.digestValid = 1 ↔ s.st = .done))

/-- R56, R73: while the digest is valid, the two views are `H` as words and as its 32 big-endian bytes. -/
def Obligations.DigestOutputsAreTheHashState : Prop :=
  ∀ s : State, s.digestValid = 1 → ∀ r : Nat,
    (∀ k : Fin 8, s.digestWord r k = s.h[k]) ∧
    (∀ i : Fin 32, (s.digestByte r i).toNat =
      (s.digestWord r ⟨i.val / 4, by omega⟩).toNat / 2 ^ (24 - 8 * (i.val % 4)) % 256)

/-! ## Padder -/

/-- R121: the padded buffer is the smallest number of whole blocks that holds the message and nine more bytes. -/
def Obligations.BlockCountIsTheSmallestThatFits : Prop :=
  (∀ len : Nat, len + 9 ≤ 64 * nblkOf len ∧ (∀ k, len + 9 ≤ 64 * k → nblkOf len ≤ k) ∧ 1 ≤ nblkOf len ∧
    (len % 64 ≤ 55 → nblkOf len = len / 64 + 1) ∧ (56 ≤ len % 64 → nblkOf len = len / 64 + 2)) ∧
  nblkOf 0 = 1 ∧ nblkOf 55 = 1 ∧ nblkOf 56 = 2 ∧ nblkOf 63 = 2 ∧ nblkOf 64 = 2 ∧ nblkOf 119 = 2 ∧ nblkOf 120 = 3

/-- R122: every byte of the padded buffer, for every length of the domain, and the size of the buffer: T = 64 x `NBLK`
is at least `LEN` + 9, less than `LEN` + 73, and leaves 0 to 63 zero bytes. -/
def Obligations.PaddedBufferByteByByte : Prop :=
  ∀ (msg : Nat → Byte) (len : BitVec 64) (i : Nat), len.toNat < 2 ^ 61 → i < 64 * nblkOf len.toNat →
    len.toNat + 9 ≤ 64 * nblkOf len.toNat ∧ 64 * nblkOf len.toNat < len.toNat + 9 + 64 ∧
    (len.toNat % 64 = 55 → 64 * nblkOf len.toNat - 9 - len.toNat = 0) ∧
    (len.toNat % 64 = 56 → 64 * nblkOf len.toNat - 9 - len.toNat = 63) ∧
    (i < len.toNat → padByte msg len (64 * nblkOf len.toNat) i = msg i) ∧
    (i = len.toNat → padByte msg len (64 * nblkOf len.toNat) i = 0x80) ∧
    (len.toNat < i → i < 64 * nblkOf len.toNat - 8 → padByte msg len (64 * nblkOf len.toNat) i = 0x00) ∧
    (64 * nblkOf len.toNat - 8 ≤ i → (padByte msg len (64 * nblkOf len.toNat) i).toNat =
      len.toNat * 8 / 2 ^ (8 * (64 * nblkOf len.toNat - 1 - i)) % 256)

/-- R124: where the marker, the zero bytes and the length field stand, for r = `LEN mod 64` at most 55 and at least 56,
in block q = `LEN div 64` and, in the second case, the extra block q + 1. -/
def Obligations.TwoTierPaddingDecision : Prop :=
  ∀ (msg : Nat → Byte) (len : BitVec 64), len.toNat < 2 ^ 61 →
    let q := len.toNat / 64
    let r := len.toNat % 64
    let lengthByte (i : Nat) : Byte := (BitVec.ofNat 64 (len.toNat * 8)).extractLsb' (8 * (63 - i)) 8
    (r ≤ 55 → nblkOf len.toNat = q + 1 ∧
      ∀ i : Fin 64, (padOf msg len q)[i] =
        if i.val < r then msg (64 * q + i.val) else if i.val = r then 0x80
        else if i.val < 56 then 0x00 else lengthByte i.val) ∧
    (56 ≤ r → nblkOf len.toNat = q + 2 ∧
      (∀ i : Fin 64, (padOf msg len q)[i] =
        if i.val < r then msg (64 * q + i.val) else if i.val = r then 0x80 else 0x00) ∧
      (∀ i : Fin 64, (padOf msg len (q + 1))[i] = if i.val < 56 then 0x00 else lengthByte i.val))

/-- R127: the size of the padded buffer is the least positive multiple of 64 that is at least `LEN` + 9, 64 bytes for
`LEN` = 55 and 128 for `LEN` = 56; it begins with the message, goes on with the marker, and its last eight bytes decode,
big-endian, to the bit length. -/
def Obligations.PaddedBufferHoldsMessageMarkerAndBitLength : Prop :=
  ∀ (msg : Nat → Byte) (len : BitVec 64), len.toNat < 2 ^ 61 →
    let total := 64 * nblkOf len.toNat
    let p := padByte msg len total
    (0 < total ∧ total % 64 = 0 ∧ len.toNat + 9 ≤ total ∧ ∀ k, len.toNat + 9 ≤ 64 * k → total ≤ 64 * k) ∧
    (len.toNat = 55 → nblkOf len.toNat = 1) ∧ (len.toNat = 56 → nblkOf len.toNat = 2) ∧
    (∀ i, i < len.toNat → p i = msg i) ∧ p len.toNat = 0x80 ∧
    (p (total - 8)).toNat * 256 ^ 7 + (p (total - 7)).toNat * 256 ^ 6 + (p (total - 6)).toNat * 256 ^ 5 +
      (p (total - 5)).toNat * 256 ^ 4 + (p (total - 4)).toNat * 256 ^ 3 + (p (total - 3)).toNat * 256 ^ 2 +
      (p (total - 2)).toNat * 256 + (p (total - 1)).toNat = 8 * len.toNat

/-- R126, R59: in an operation whose length was accepted, at a block below `NBLK`, `PADBLK` completes, loads block `N`
of the functional level, goes on to `LDW 0`, changes nothing else, and reads exactly the message bytes of that block,
each once, ascending. -/
def Obligations.PadblkLoadsTheCurrentBlock : Prop :=
  decode (.control 0b010000000#9) = .ok .padblk ∧
  ∀ s : State, lengthCheck s.len.toNat s.msgExtent.val s.capBytes.val = .noError →
    s.nblk.toNat = nblkOf s.len.toNat → s.n.toNat < s.nblk.toNat →
    exec .padblk s = .next { s with blk := padOf s.message s.len s.n.toNat, uop := .ldw, idx := 0 } ∧
    (∀ a, a ∈ s.messageReads ↔ 64 * s.n.toNat ≤ a ∧ a < 64 * s.n.toNat + 64 ∧ a < s.len.toNat) ∧
    s.messageReads.Pairwise (· < ·)

/-- In any state, `PADBLK` stops exactly when a message byte it reads does not exist; then it is the fault
`readOutsideMessage` (R52 says only that such a read is not defined: the fault is the model's, notes/assumptions/11.md). -/
def Obligations.PadblkStopsExactlyOnAMissingMessageByte : Prop :=
  ∀ s : State,
    ((∃ a ∈ s.messageReads, s.msgExtent.val ≤ a) → exec .padblk s = .fault .readOutsideMessage) ∧
    ((∀ a ∈ s.messageReads, a < s.msgExtent.val) → ∃ blk, exec .padblk s =
      .next { s with blk := blk, uop := .ldw, idx := 0 })

/-- R59: two message spaces that agree on the bytes `PADBLK` reads give the same block. -/
def Obligations.PadblkSeesOnlyTheBytesItReads : Prop :=
  ∀ (s t : State) (m : List Host.Cell), (∀ a ∈ s.messageReads, Memory.read m a = s.message a) →
    exec .padblk s = .next t → exec .padblk { s with msg := m } = .next { t with msg := m }

/-! ## Scheduler -/

/-- R143: `LDW t`. -/
def Obligations.LdwLoadsOneBlockWord : Prop :=
  ∀ t : Fin 16, decode (.control (0b01100#5 ++ BitVec.ofNat 4 t.val)) = .ok (.ldw t) ∧
    ∀ s : State, ∃ x : Word,
      x.toNat = (s.blk[4 * t.val]'(by omega)).toNat * 2 ^ 24 + (s.blk[4 * t.val + 1]'(by omega)).toNat * 2 ^ 16 +
        (s.blk[4 * t.val + 2]'(by omega)).toNat * 2 ^ 8 + (s.blk[4 * t.val + 3]'(by omega)).toNat ∧
      exec (.ldw t) s = .next { s with
        w := s.w.set t.val x
        uop := if t.val < 15 then .ldw else .expw
        idx := if t.val < 15 then BitVec.ofNat 6 (t.val + 1) else 16 }

/-- R144: `EXPW t`, for t = 16 .. 63, with the four-term sum modulo 2^32 as numbers. -/
def Obligations.ExpwComputesOneScheduleWord : Prop :=
  ∀ t : Fin 64, 16 ≤ t.val → decode (.control (0b100#3 ++ BitVec.ofNat 6 t.val)) = .ok (.expw t) ∧
    ∀ s : State, ∃ x : Word,
      x.toNat = ((ssig1 (s.w[t.val - 2]'(by omega))).toNat + (s.w[t.val - 7]'(by omega)).toNat +
        (ssig0 (s.w[t.val - 15]'(by omega))).toNat + (s.w[t.val - 16]'(by omega)).toNat) % 2 ^ 32 ∧
      exec (.expw t) s = .next { s with
        w := s.w.set t.val x
        uop := if t.val < 63 then .expw else .ldv
        idx := if t.val < 63 then BitVec.ofNat 6 (t.val + 1) else 0 }

/-- The model's stop for `EXPW` with an index that R85 reserves: no step. -/
def Obligations.ExpwBelowSixteenIsRefused : Prop :=
  ∀ (t : Fin 64) (s : State), t.val < 16 →
    (∀ i, decode (.control (0b100#3 ++ BitVec.ofNat 6 t.val)) ≠ .ok i) ∧
    exec (.expw t) s = .refused .reservedControlWord

/-- R141, R142: the schedule of every block. -/
def Obligations.ExpandIsTheScheduleOfTheBlock : Prop :=
  ∀ blk : Vector Byte 64,
    (∀ t : Fin 16, (expand blk)[t.val]'(by omega) =
      be32 (blk[4 * t.val]'(by omega)) (blk[4 * t.val + 1]'(by omega)) (blk[4 * t.val + 2]'(by omega))
        (blk[4 * t.val + 3]'(by omega))) ∧
    (∀ t : Fin 64, 16 ≤ t.val → (expand blk)[t] =
      ssig1 ((expand blk)[t.val - 2]'(by omega)) + (expand blk)[t.val - 7]'(by omega) +
        ssig0 ((expand blk)[t.val - 15]'(by omega)) + (expand blk)[t.val - 16]'(by omega))

/-- R145: from `LDW 0`, the 64 steps of the scheduler leave the schedule of the block buffer in `W`, whatever `W` held,
and come to `LDV`; nothing else changes. -/
def Obligations.SchedulerRunComputesExpand : Prop :=
  ∀ s : State, s.st = .busy → s.uop = .ldw → s.idx = 0 → s.moves = [] →
    runSteps 64 s = .next { s with w := expand s.blk, uop := .ldv, idx := 0 }

/-! ## Compressor -/

/-- R151: `LDV`. -/
def Obligations.LdvCopiesTheHashState : Prop :=
  decode (.control 0b101000000#9) = .ok .ldv ∧
  ∀ s : State, exec .ldv s = .next { s with v := s.h, uop := .rnd, idx := 0 }

/-- R152, R153: `RND j`, with the sums modulo 2^32 as numbers. -/
def Obligations.RndIsOneCompressionRound : Prop :=
  ∀ j : Fin 64, decode (.control (0b110#3 ++ BitVec.ofNat 6 j.val)) = .ok (.rnd j) ∧
    ∀ s : State, ∃ t1 t2 a e : Word,
      t1.toNat = (s.v[7].toNat + (bsig1 s.v[4]).toNat + (ch s.v[4] s.v[5] s.v[6]).toNat + K[j].toNat +
        s.w[j].toNat) % 2 ^ 32 ∧
      t2.toNat = ((bsig0 s.v[0]).toNat + (maj s.v[0] s.v[1] s.v[2]).toNat) % 2 ^ 32 ∧
      a.toNat = (t1.toNat + t2.toNat) % 2 ^ 32 ∧ e.toNat = (s.v[3].toNat + t1.toNat) % 2 ^ 32 ∧
      exec (.rnd j) s = .next { s with
        v := #v[a, s.v[0], s.v[1], s.v[2], e, s.v[4], s.v[5], s.v[6]]
        uop := if j.val < 63 then .rnd else .ffwd
        idx := if j.val < 63 then BitVec.ofNat 6 (j.val + 1) else 0 }

/-- R155: `FFWD`, with the sums modulo 2^32 as numbers. `N + 1` is stored exactly wherever it fits the 56 bits of `N`;
where it does not, which no operation comes to, the stored value is free (notes/assumptions/6.md). -/
def Obligations.FfwdFeedsForwardAndAdvances : Prop :=
  decode (.control 0b111000000#9) = .ok .ffwd ∧
  ∀ s : State, ∃ (h : Vector Word 8) (n : BitVec 56),
    (∀ k : Fin 8, h[k].toNat = (s.h[k].toNat + s.v[k].toNat) % 2 ^ 32) ∧
    (s.n.toNat + 1 < 2 ^ 56 → n.toNat = s.n.toNat + 1) ∧
    exec .ffwd s = .next (if s.n.toNat + 1 < s.nblk.toNat then { s with h := h, n := n, uop := .padblk, idx := 0 }
      else { s with h := h, n := n, st := .done, uop := .wait, idx := 0 })

/-- R156: from `LDV`, the 66 steps of the compressor end with `H` = `compress(H, W)`; `V` holds the last round's
values, `N` is advanced (exactly, wherever the successor fits its 56 bits), and the operation goes on with the next
block or is done; nothing else changes. -/
def Obligations.CompressorRunComputesCompress : Prop :=
  ∀ s : State, s.st = .busy → s.uop = .ldv → s.idx = 0 → s.moves = [] →
    ∃ n : BitVec 56, (s.n.toNat + 1 < 2 ^ 56 → n.toNat = s.n.toNat + 1) ∧
      runSteps 66 s = .next { s with
        h := compress s.h s.w
        v := rounds s.w s.h 64
        n := n
        st := if s.n.toNat + 1 < s.nblk.toNat then .busy else .done
        uop := if s.n.toNat + 1 < s.nblk.toNat then .padblk else .wait
        idx := 0 }

/-! ## Driver and host commands -/

/-- R173: `INIT`. `NBLK` is exact for every length of the domain; for a length whose count does not fit 56 bits, which
no operation has, the stored value is free (notes/assumptions/6.md). -/
def Obligations.InitLoadsTheInitialHashState : Prop :=
  decode (.control 0b001000000#9) = .ok .init ∧
  ∀ s : State, ∃ x : BitVec 56, (s.len.toNat < 2 ^ 61 → x.toNat = (s.len.toNat + 8) / 64 + 1) ∧
    exec .init s = .next { s with
      h := #v[0x6a09e667, 0xbb67ae85, 0x3c6ef372, 0xa54ff53a, 0x510e527f, 0x9b05688c, 0x1f83d9ab, 0x5be0cd19]
      n := 0
      nblk := x
      uop := .padblk
      idx := 0 }

/-- R178: `NOP` changes nothing, in any status, for any argument. -/
def Obligations.NopChangesNothing : Prop :=
  ∀ (arg : BitVec 64) (s : State), decode (.command (0b00#2 ++ arg)) = .ok (.nop arg) ∧ exec (.nop arg) s = .next s

/-- R172, R206: `HASH len` in IDLE, DONE and ERROR: `LEN` is written, and the operation starts or the first cause that
applies is raised; nothing else changes. -/
def Obligations.HashStartsTheOperationOrRaisesTheFirstCause : Prop :=
  ∀ (len : BitVec 64) (s : State), decode (.command (0b01#2 ++ len)) = .ok (.hash len) ∧
    (s.st ≠ .busy →
      (2 ^ 61 ≤ len.toNat → exec (.hash len) s =
        .next { s with len := len, err := .lengthOverflow, st := .error, uop := .wait, idx := 0 }) ∧
      (len.toNat < 2 ^ 61 → s.msgExtent.val < len.toNat → exec (.hash len) s =
        .next { s with len := len, err := .lengthMismatch, st := .error, uop := .wait, idx := 0 }) ∧
      (len.toNat < 2 ^ 61 → len.toNat ≤ s.msgExtent.val → s.capBytes.val < len.toNat → exec (.hash len) s =
        .next { s with len := len, err := .allocationFailure, st := .error, uop := .wait, idx := 0 }) ∧
      (len.toNat < 2 ^ 61 → len.toNat ≤ s.msgExtent.val → len.toNat ≤ s.capBytes.val → exec (.hash len) s =
        .next { s with len := len, err := .noError, st := .busy, uop := .init, idx := 0 }))

/-- R204: fault entry writes `ERR`, `ST` and the sequencer, and nothing else, and the digest outputs are invalid (the
rule's causes are 1 .. 3; the operation does the same for the code 0, with which nothing calls it). R204 and R179 say
that the engine has no step from there; that a step at rest is a step that changes nothing is the model's choice
(notes/assumptions/8.md). -/
def Obligations.FaultEntryWritesErrStAndSequencer : Prop :=
  ∀ (c : ErrCode) (s : State), s.raiseFault c = { s with err := c, st := .error, uop := .wait, idx := 0 } ∧
    (s.raiseFault c).digestValid = 0 ∧
    (s.moves = [] → ∀ k, runSteps k (s.raiseFault c) = .next (s.raiseFault c))

/-- R209: a `HASH` that faults, presented again with the same parameters, faults the same way and changes nothing. -/
def Obligations.RepeatedFaultIsTheSame : Prop :=
  ∀ (len : BitVec 64) (s t : State), exec (.hash len) s = .next t → t.st = .error → s.st ≠ .busy →
    exec (.hash len) t = .next t

/-- R180: a `HASH` presented while BUSY changes no state and raises no fault, and the operation goes on as if it had
not been presented. -/
def Obligations.HashWhileBusyIsIgnored : Prop :=
  ∀ (len : BitVec 64) (s : State) (ms : List Move), s.st = .busy →
    exec (.hash len) s = .next s ∧
    (s.moves = .command (0b01#2 ++ len) :: ms → step s = .next { s with moves := ms }) ∧
    (∀ k, runSteps (k + 1) { s with moves := .command (0b01#2 ++ len) :: ms } =
      runSteps k { s with moves := ms })

/-- R179: while `ST` is not BUSY nothing changes until the host acts. That `WAIT` as an instruction, and the engine's
step at rest, are steps that change nothing is the model's choice (notes/assumptions/8.md): the rule has no step there. -/
def Obligations.WaitChangesNothing : Prop :=
  decode (.control 0b000000000#9) = .ok .wait ∧
  (∀ s : State, exec .wait s = .next s) ∧
  (∀ s : State, s.st ≠ .busy → s.moves = [] → ∀ k, runSteps k s = .next s)

/-- R174: the successor of an accepted `HASH` and of every micro-operation. -/
def Obligations.SuccessorOfEveryMicroOperation : Prop :=
  ∀ (i : Instr) (s t : State), exec i s = .next t →
    (∀ len, i = .hash len → s.st ≠ .busy → t.st = .busy → t.uop = .init ∧ t.idx = 0) ∧
    (i = .init → t.uop = .padblk ∧ t.idx = 0) ∧
    (i = .padblk → t.uop = .ldw ∧ t.idx = 0) ∧
    (∀ k : Fin 16, i = .ldw k → k.val < 15 → t.uop = .ldw ∧ t.idx.toNat = k.val + 1) ∧
    (i = .ldw 15 → t.uop = .expw ∧ t.idx.toNat = 16) ∧
    (∀ k : Fin 64, i = .expw k → k.val < 63 → t.uop = .expw ∧ t.idx.toNat = k.val + 1) ∧
    (i = .expw 63 → t.uop = .ldv ∧ t.idx = 0) ∧
    (i = .ldv → t.uop = .rnd ∧ t.idx = 0) ∧
    (∀ j : Fin 64, i = .rnd j → j.val < 63 → t.uop = .rnd ∧ t.idx.toNat = j.val + 1) ∧
    (i = .rnd 63 → t.uop = .ffwd ∧ t.idx = 0) ∧
    (i = .ffwd → s.n.toNat + 1 < s.nblk.toNat → t.uop = .padblk ∧ t.idx = 0 ∧ t.st = s.st) ∧
    (i = .ffwd → s.nblk.toNat ≤ s.n.toNat + 1 → t.uop = .wait ∧ t.idx = 0 ∧ t.st = .done)

/-! ## The step -/

/-- While BUSY, a step of the engine is the meaning of the micro-operation that (`UOP`, `IDX`) decodes to (R174),
whether the engine moves because no move is listed or because its move is the next one (the list is the model's,
notes/assumptions/8.md). -/
def Obligations.EngineStepRunsTheDecodedControlWord : Prop :=
  ∀ (s : State) (i : Instr), s.st = .busy → decode (.control s.controlWord) = .ok i →
    (s.moves = [] → step s = exec i s) ∧
    (∀ ms, s.moves = .engine :: ms → step s = exec i { s with moves := ms })

/-- A command word that decodes is carried out in the state that remains when it is taken off the port (R80, R81; the
list of moves is the model's, notes/assumptions/8.md). -/
def Obligations.CommandMoveRunsTheDecodedCommand : Prop :=
  ∀ (s : State) (w : BitVec 66) (i : Instr) (ms : List Move), s.moves = .command w :: ms →
    decode (.command w) = .ok i → step s = exec i { s with moves := ms }

/-- Every well-formed instruction, given as a word in the opcode table's numbering, is what the decoder reads there,
and, placed for the next step, is what that step runs (the model's own interface, notes/assumptions/10.md). -/
def Obligations.PlacedTableWordIsTheInstructionThatRuns : Prop :=
  ∀ (i : Instr) (s : State), i.wellFormed = true →
    match encode i with
    | .control w => decodeTableWord 16 w.toNat = some i ∧
        step (s.withFetchWord 16 w.toNat) = exec i { s with
          uop := Uop.ofCode (w.extractLsb' 6 3)
          idx := w.extractLsb' 0 6
          st := if w = 0 then s.st else .busy }
    | .command w => decodeTableWord 72 w.toNat = some i ∧ step (s.withFetchWord 72 w.toNat) = exec i s

/-- R230: the `RESET` input, in any state; every register but the four it writes may hold any value afterwards. -/
def Obligations.ResetInputIdlesTheEngine : Prop :=
  ∀ (s : State) (ms : List Move), s.moves = .reset :: ms →
    ∃ (h v : Vector Word 8) (w : Vector Word 64) (blk : Vector Byte 64) (len : BitVec 64) (n nblk : BitVec 56)
      (d : Nat),
      step s = .next { s with
        h := h, v := v, w := w, blk := blk, len := len, n := n, nblk := nblk, draws := d
        st := .idle, err := .noError, uop := .wait, idx := 0, moves := ms }

/-- R231: a `RESET` during an operation abandons it: whatever the number of steps that follow, the engine is idle, no
cause is recorded, and no digest is valid, until the host acts again. That those steps go on answering next states is
the model's choice (notes/assumptions/8.md): the spec has no step at rest (R179). -/
def Obligations.ResetAbandonsTheOperation : Prop :=
  ∀ s : State, s.moves = [.reset] → ∀ k, ∃ t, runSteps (k + 1) s = .next t ∧
    t.st = .idle ∧ t.err = .noError ∧ t.uop = .wait ∧ t.digestValid = 0 ∧ t.moves = []

/-- What the state after reset is: the four registers R37 gives, `DIGEST_VALID`, and an engine at rest. That its step
changes nothing is the model's choice (notes/assumptions/8.md): the spec has no step at rest (R179). -/
def Obligations.ResetStateIsIdle : Prop :=
  State.reset.st = .idle ∧ State.reset.uop = .wait ∧ State.reset.idx = 0 ∧ State.reset.err = .noError ∧
  State.reset.digestValid = 0 ∧ step State.reset = .next State.reset

/-- The host's write of one message byte (R15, R50, R236): at an index that exists that byte alone changes, at any
time, in every state whose message space is in canonical form (which every step keeps: `EveryStepKeepsTheInvariant`); at one that does not exist the step faults (the fault is the model's, notes/assumptions/11.md). -/
def Obligations.HostWriteChangesOneMessageByte : Prop :=
  ∀ (s : State) (addr : Nat) (b : Byte) (ms : List Move), s.moves = .write addr b :: ms →
    (addr < s.msgExtent.val → Memory.wf s.msgExtent.val s.msg = true → ∃ t, step s = .next t ∧ t.message addr = b ∧
      (∀ a, a ≠ addr → t.message a = s.message a) ∧ t = { s with msg := t.msg, moves := ms }) ∧
    (s.msgExtent.val ≤ addr → step s = .fault .writeOutsideMessage)

/-- The host binds a message (R8, R90; the move is the model's, notes/assumptions/9.md): its bytes are the message
space and its length the extent, and nothing else changes; it is refused when it is too long or when it withdraws bytes
of an operation in progress. -/
def Obligations.HostBindMakesTheMessageAvailable : Prop :=
  ∀ (s : State) (m : List Byte) (ms : List Move), s.moves = .bind m :: ms →
    (m.length < 2 ^ 64 → ¬ (s.st = .busy ∧ m.length < s.len.toNat) →
      ∃ t, step s = .next t ∧ t.msgExtent.val = m.length ∧ (∀ i (h : i < m.length), t.message i = m[i]) ∧
        t = { s with msg := t.msg, msgExtent := t.msgExtent, moves := ms }) ∧
    (m.length < 2 ^ 64 → s.st = .busy → m.length < s.len.toNat → step s = .refused .messageWithdrawn) ∧
    (2 ^ 64 ≤ m.length → step s = .refused .messageTooLong)

/-! ## Frames -/

/-- R53: no instruction changes a byte of the message, its extent, the capacity, or the moves to come. -/
def Obligations.NoInstructionChangesTheMessage : Prop :=
  ∀ (i : Instr) (s t : State), exec i s = .next t → s.sameOutside t

/-- R38, the write side of the access table, for the seven micro-operations: every register that the table leaves
blank for the instruction keeps its value; `LDW t` and `EXPW t` write word t of `W` alone. -/
def Obligations.MicroOperationsWriteOnlyTheirRegisters : Prop :=
  ∀ (i : Instr) (s t : State), i ∈ [.init, .padblk, .ldv, .ffwd] ∨ (∃ k, i = .ldw k) ∨ (∃ k, i = .expw k) ∨
      (∃ j, i = .rnd j) → exec i s = .next t →
    t.len = s.len ∧ t.err = s.err ∧
    (i ≠ .init → i ≠ .ffwd → t.h = s.h ∧ t.n = s.n) ∧
    (i ≠ .init → t.nblk = s.nblk) ∧
    (i ≠ .ffwd ∨ s.n.toNat + 1 < s.nblk.toNat → t.st = s.st) ∧
    ((∀ j, i ≠ .rnd j) → i ≠ .ldv → t.v = s.v) ∧
    (i ≠ .padblk → t.blk = s.blk) ∧
    (∀ k : Fin 64, (∀ c : Fin 16, i = .ldw c → c.val ≠ k.val) → (∀ c : Fin 64, i = .expw c → c ≠ k) →
      t.w[k] = s.w[k])

/-- R38 for the host commands: `NOP` writes nothing, `HASH` nothing but `LEN`, `ST`, `UOP`, `IDX`, `ERR`; while BUSY
`HASH` writes nothing either. -/
def Obligations.HostCommandsWriteOnlyTheirRegisters : Prop :=
  ∀ (i : Instr) (s t : State), (∃ arg, i = .nop arg) ∨ (∃ len, i = .hash len) → exec i s = .next t →
    t.h = s.h ∧ t.v = s.v ∧ t.w = s.w ∧ t.blk = s.blk ∧ t.nblk = s.nblk ∧ t.n = s.n ∧
    ((∃ arg, i = .nop arg) ∨ s.st = .busy → t = s)

/-- While an operation is in progress, no command word and no message write or bind of the host changes a register of
the engine (R180, R236): only `RESET` interferes. -/
def Obligations.HostMovesWhileBusyLeaveTheRegisters : Prop :=
  ∀ (s t : State) (m : Move) (ms : List Move), s.st = .busy → s.moves = m :: ms → m ≠ .engine → m ≠ .reset →
    step s = .next t → s.sameRegisters t ∧ t.moves = ms

/-! ## Whole-machine rules -/

/-- R29: the status changes only by a `HASH` accepted while not BUSY (to BUSY or ERROR), by the last `FFWD` of an
operation (BUSY to DONE), and by `RESET` (to IDLE). -/
def Obligations.StatusChangesOnlyByHashFfwdAndReset : Prop :=
  ∀ s t : State, step s = .next t → t.st ≠ s.st →
    (∃ w len, s.nextMove = .command w ∧ decode (.command w) = .ok (.hash len) ∧ s.st ≠ .busy ∧
      (t.st = .busy ∨ t.st = .error)) ∨
    (s.engineMoves ∧ s.st = .busy ∧ s.uop = .ffwd ∧ s.nblk.toNat ≤ s.n.toNat + 1 ∧ t.st = .done) ∨
    (s.nextMove = .reset ∧ t.st = .idle)

/-- R34, R31: `ERR` is written only by a `HASH` accepted while not BUSY and by `RESET`; no micro-operation writes it. -/
def Obligations.ErrorCodeChangesOnlyByHashAndReset : Prop :=
  ∀ s t : State, step s = .next t → t.err ≠ s.err →
    (∃ w len, s.nextMove = .command w ∧ decode (.command w) = .ok (.hash len) ∧ s.st ≠ .busy ∧
      t.err = lengthCheck len.toNat s.msgExtent.val s.capBytes.val) ∨
    (s.nextMove = .reset ∧ t.err = .noError)

/-- R20, R21, R22, R25, R26, R27, R28: the only writers of each data register and counter. If a step changes one, the
step is `RESET` or the named micro-operation of the engine (or, for `LEN`, a `HASH` accepted while not BUSY). -/
def Obligations.EveryRegisterHasOnlyItsWriters : Prop :=
  ∀ s t : State, step s = .next t → s.nextMove ≠ .reset →
    (t.h ≠ s.h → s.engineMoves ∧ s.st = .busy ∧ (s.uop = .init ∨ s.uop = .ffwd)) ∧
    (t.v ≠ s.v → s.engineMoves ∧ s.st = .busy ∧ (s.uop = .ldv ∨ s.uop = .rnd)) ∧
    (∀ k : Fin 64, t.w[k] ≠ s.w[k] → s.engineMoves ∧ s.st = .busy ∧ s.idx.toNat = k.val ∧
      s.uop = if k.val < 16 then .ldw else .expw) ∧
    (t.blk ≠ s.blk → s.engineMoves ∧ s.st = .busy ∧ s.uop = .padblk) ∧
    (t.nblk ≠ s.nblk → s.engineMoves ∧ s.st = .busy ∧ s.uop = .init) ∧
    (t.n ≠ s.n → s.engineMoves ∧ s.st = .busy ∧ (s.uop = .init ∨ s.uop = .ffwd)) ∧
    (t.len ≠ s.len → ∃ w len, s.nextMove = .command w ∧ decode (.command w) = .ok (.hash len) ∧ s.st ≠ .busy ∧
      t.len = len)

/-- R192, R200: in a good state with an operation in progress the engine's step answers a next state: no micro-operation
faults or blocks. -/
def Obligations.BusyEngineAlwaysHasAStep : Prop :=
  ∀ s : State, s.Inv → s.st = .busy → s.engineMoves → ∃ t, step s = .next t

/-- The reset state meets the invariant. -/
def Obligations.ResetStateMeetsTheInvariant : Prop := State.reset.Inv

/-- Every step that answers a next state keeps the invariant: the message in canonical form, `UOP` = WAIT exactly when
not BUSY (R30), `ERR` nonzero exactly in ERROR (R31), a legal control word (R84), an accepted length while BUSY, and the
block counters within their range (R27, R28). -/
def Obligations.EveryStepKeepsTheInvariant : Prop :=
  ∀ s t : State, s.Inv → step s = .next t → t.Inv

/-- Every step from a good state that leaves the first `LEN` message bytes as they are keeps the agreement of the data
registers with the functional level; in DONE that says `H` = `digest(MSG[0 .. LEN-1], LEN)` (R177). -/
def Obligations.EveryStepKeepsTheAgreementWithTheDigest : Prop :=
  ∀ s t : State, s.Inv → s.Agrees → step s = .next t →
    (∀ a, a < s.len.toNat → t.message a = s.message a) → t.Agrees

/-- R190, R191: an accepted `HASH len`, from any state that is not BUSY, and then 1 + 131 x `NBLK` engine steps, and no
fewer, end in DONE with `ERR` = 0 and the digest of the first `len` message bytes in `H`; the message is unchanged. -/
def Obligations.HashRunEndsWithTheDigest : Prop :=
  ∀ (s : State) (len : BitVec 64), s.st ≠ .busy → len.toNat < 2 ^ 61 → len.toNat ≤ s.msgExtent.val →
    len.toNat ≤ s.capBytes.val → s.moves = [.command (0b01#2 ++ len)] →
    (∀ k, k < 1 + 131 * nblkOf len.toNat →
      ∃ u, runSteps (1 + k) s = .next u ∧ u.st = .busy) ∧
    (∃ t, runSteps (1 + (1 + 131 * nblkOf len.toNat)) s = .next t ∧
      t.st = .done ∧ t.err = .noError ∧ t.h = digest s.message len ∧ t.msg = s.msg ∧ t.msgExtent = s.msgExtent)

/-- R170: the digest is a function of the first `len` message bytes and `len` alone. -/
def Obligations.DigestDependsOnTheMessageBytesAlone : Prop :=
  ∀ (m m' : Nat → Byte) (len : BitVec 64), (∀ a, a < len.toNat → m' a = m a) → digest m' len = digest m len
end

