-- ==== Sys2Proof/Laws/Functional.lean ====
section
/-! SUPPORT. The functional level, one step of each recursion at a time: the schedule (R142), the rounds (R154), the fold
over the blocks (R170), and what each of them depends on. -/

namespace Sys2Proof.Machine

theorem loadWords_get (blk : Vector Byte 64) (i : Nat) (h : i < 16) :
    (loadWords blk)[i]'(by omega) = blockWord blk ⟨i, h⟩ := by
  simp [loadWords, h]

theorem expandFrom_succ (w : Vector Word 64) (k : Nat) (h : 16 + k < 64) :
    expandFrom w (k + 1) = (expandFrom w k).set (16 + k) (scheduleWord (expandFrom w k) ⟨16 + k, h⟩) := by
  simp [expandFrom, h]

/-- Computing one more word changes that word alone. -/
theorem expandFrom_succ_get_ne (w : Vector Word 64) (k i : Nat) (hi : i < 64) (hne : i ≠ 16 + k) :
    (expandFrom w (k + 1))[i] = (expandFrom w k)[i] := by
  by_cases h : 16 + k < 64
  · rw [expandFrom_succ w k h, Vector.getElem_set_ne _ _ (by omega)]
  · simp [expandFrom, h]

/-- A word once computed stays. -/
theorem expandFrom_stable (w : Vector Word 64) (k d i : Nat) (hi : i < 64) (h : i < 16 + k) :
    (expandFrom w (k + d))[i] = (expandFrom w k)[i] := by
  induction d with
  | zero => rfl
  | succ d ih => rw [← Nat.add_assoc, expandFrom_succ_get_ne w _ i hi (by omega), ih]

/-- The recurrence at `t` looks at four words below `t` alone. -/
theorem scheduleWord_congr {w w' : Vector Word 64} (t : Fin 64) (ht : 16 ≤ t.val)
    (h : ∀ i (hi : i < 64), i < t.val → w[i] = w'[i]) : scheduleWord w t = scheduleWord w' t := by
  have := t.isLt
  simp only [scheduleWord]
  rw [h (t.val - 2) (by omega) (by omega), h (t.val - 7) (by omega) (by omega),
    h (t.val - 15) (by omega) (by omega), h (t.val - 16) (by omega) (by omega)]

theorem feedForward_get (h v : Vector Word 8) (k : Fin 8) : (feedForward h v)[k] = h[k] + v[k] := by
  match k with
  | 0 | 1 | 2 | 3 | 4 | 5 | 6 | 7 => rfl

theorem rounds_succ (w : Vector Word 64) (v : Vector Word 8) (j : Fin 64) :
    rounds w v (j.val + 1) = roundStep j w (rounds w v j.val) := by
  simp [rounds]

theorem hashAfter_succ (msg : Nat → Byte) (len : BitVec 64) (n : Nat) :
    hashAfter msg len (n + 1) = compress (hashAfter msg len n) (expand (padOf msg len n)) := rfl

/-- A byte of the padded buffer looks at the message below `LEN` alone. -/
theorem padByte_congr {m m' : Nat → Byte} (len : BitVec 64) (total i : Nat)
    (h : i < total → i < len.toNat → m' i = m i) : padByte m' len total i = padByte m len total i := by
  unfold padByte
  split
  · rfl
  · next ht =>
    split
    · next hi => exact h (by omega) hi
    · rfl

theorem padBlock_get (msg : Nat → Byte) (len : BitVec 64) (total n i : Nat) (h : i < 64) :
    (padBlock msg len total n)[i] = padByte msg len total (64 * n + i) := by
  simp [padBlock]

theorem padBlock_congr {m m' : Nat → Byte} (len : BitVec 64) (total n : Nat)
    (h : ∀ i, i < 64 → 64 * n + i < total → 64 * n + i < len.toNat → m' (64 * n + i) = m (64 * n + i)) :
    padBlock m' len total n = padBlock m len total n := by
  refine Vector.ext fun i hi => ?_
  rw [padBlock_get, padBlock_get]
  exact padByte_congr len total _ (h i hi)

theorem nblkOf_pos (len : Nat) : 0 < nblkOf len := by unfold nblkOf; omega

/-- Inside the domain every block count fits its 56-bit register (R35). -/
theorem nblkOf_lt {len : Nat} (h : len < 2 ^ 61) : nblkOf len < 2 ^ 56 := by unfold nblkOf; omega

end Sys2Proof.Machine
end

