-- ==== Sys2Proof/Laws/State.lean ====
section
/-! SUPPORT. For each named update of the state, what each field holds after it; and the updates the sequencer makes
after an indexed micro-operation. -/

namespace Sys2Proof.Machine

/-! `setH` -/

@[simp] theorem State.setH_h (s : State) (x : Vector Word 8) : (s.setH x).h = x := rfl
@[simp] theorem State.setH_v (s : State) (x : Vector Word 8) : (s.setH x).v = s.v := rfl
@[simp] theorem State.setH_w (s : State) (x : Vector Word 8) : (s.setH x).w = s.w := rfl
@[simp] theorem State.setH_blk (s : State) (x : Vector Word 8) : (s.setH x).blk = s.blk := rfl
@[simp] theorem State.setH_len (s : State) (x : Vector Word 8) : (s.setH x).len = s.len := rfl
@[simp] theorem State.setH_nblk (s : State) (x : Vector Word 8) : (s.setH x).nblk = s.nblk := rfl
@[simp] theorem State.setH_n (s : State) (x : Vector Word 8) : (s.setH x).n = s.n := rfl
@[simp] theorem State.setH_st (s : State) (x : Vector Word 8) : (s.setH x).st = s.st := rfl
@[simp] theorem State.setH_uop (s : State) (x : Vector Word 8) : (s.setH x).uop = s.uop := rfl
@[simp] theorem State.setH_idx (s : State) (x : Vector Word 8) : (s.setH x).idx = s.idx := rfl
@[simp] theorem State.setH_err (s : State) (x : Vector Word 8) : (s.setH x).err = s.err := rfl
@[simp] theorem State.setH_msg (s : State) (x : Vector Word 8) : (s.setH x).msg = s.msg := rfl
@[simp] theorem State.setH_msgExtent (s : State) (x : Vector Word 8) : (s.setH x).msgExtent = s.msgExtent := rfl
@[simp] theorem State.setH_capBytes (s : State) (x : Vector Word 8) : (s.setH x).capBytes = s.capBytes := rfl
@[simp] theorem State.setH_draws (s : State) (x : Vector Word 8) : (s.setH x).draws = s.draws := rfl
@[simp] theorem State.setH_moves (s : State) (x : Vector Word 8) : (s.setH x).moves = s.moves := rfl

/-! `setV` -/

@[simp] theorem State.setV_h (s : State) (x : Vector Word 8) : (s.setV x).h = s.h := rfl
@[simp] theorem State.setV_v (s : State) (x : Vector Word 8) : (s.setV x).v = x := rfl
@[simp] theorem State.setV_w (s : State) (x : Vector Word 8) : (s.setV x).w = s.w := rfl
@[simp] theorem State.setV_blk (s : State) (x : Vector Word 8) : (s.setV x).blk = s.blk := rfl
@[simp] theorem State.setV_len (s : State) (x : Vector Word 8) : (s.setV x).len = s.len := rfl
@[simp] theorem State.setV_nblk (s : State) (x : Vector Word 8) : (s.setV x).nblk = s.nblk := rfl
@[simp] theorem State.setV_n (s : State) (x : Vector Word 8) : (s.setV x).n = s.n := rfl
@[simp] theorem State.setV_st (s : State) (x : Vector Word 8) : (s.setV x).st = s.st := rfl
@[simp] theorem State.setV_uop (s : State) (x : Vector Word 8) : (s.setV x).uop = s.uop := rfl
@[simp] theorem State.setV_idx (s : State) (x : Vector Word 8) : (s.setV x).idx = s.idx := rfl
@[simp] theorem State.setV_err (s : State) (x : Vector Word 8) : (s.setV x).err = s.err := rfl
@[simp] theorem State.setV_msg (s : State) (x : Vector Word 8) : (s.setV x).msg = s.msg := rfl
@[simp] theorem State.setV_msgExtent (s : State) (x : Vector Word 8) : (s.setV x).msgExtent = s.msgExtent := rfl
@[simp] theorem State.setV_capBytes (s : State) (x : Vector Word 8) : (s.setV x).capBytes = s.capBytes := rfl
@[simp] theorem State.setV_draws (s : State) (x : Vector Word 8) : (s.setV x).draws = s.draws := rfl
@[simp] theorem State.setV_moves (s : State) (x : Vector Word 8) : (s.setV x).moves = s.moves := rfl

/-! `setW` -/

@[simp] theorem State.setW_h (s : State) (t : Fin 64) (x : Word) : (s.setW t x).h = s.h := rfl
@[simp] theorem State.setW_v (s : State) (t : Fin 64) (x : Word) : (s.setW t x).v = s.v := rfl
@[simp] theorem State.setW_w (s : State) (t : Fin 64) (x : Word) : (s.setW t x).w = s.w.set t.val x := rfl
@[simp] theorem State.setW_blk (s : State) (t : Fin 64) (x : Word) : (s.setW t x).blk = s.blk := rfl
@[simp] theorem State.setW_len (s : State) (t : Fin 64) (x : Word) : (s.setW t x).len = s.len := rfl
@[simp] theorem State.setW_nblk (s : State) (t : Fin 64) (x : Word) : (s.setW t x).nblk = s.nblk := rfl
@[simp] theorem State.setW_n (s : State) (t : Fin 64) (x : Word) : (s.setW t x).n = s.n := rfl
@[simp] theorem State.setW_st (s : State) (t : Fin 64) (x : Word) : (s.setW t x).st = s.st := rfl
@[simp] theorem State.setW_uop (s : State) (t : Fin 64) (x : Word) : (s.setW t x).uop = s.uop := rfl
@[simp] theorem State.setW_idx (s : State) (t : Fin 64) (x : Word) : (s.setW t x).idx = s.idx := rfl
@[simp] theorem State.setW_err (s : State) (t : Fin 64) (x : Word) : (s.setW t x).err = s.err := rfl
@[simp] theorem State.setW_msg (s : State) (t : Fin 64) (x : Word) : (s.setW t x).msg = s.msg := rfl
@[simp] theorem State.setW_msgExtent (s : State) (t : Fin 64) (x : Word) : (s.setW t x).msgExtent = s.msgExtent := rfl
@[simp] theorem State.setW_capBytes (s : State) (t : Fin 64) (x : Word) : (s.setW t x).capBytes = s.capBytes := rfl
@[simp] theorem State.setW_draws (s : State) (t : Fin 64) (x : Word) : (s.setW t x).draws = s.draws := rfl
@[simp] theorem State.setW_moves (s : State) (t : Fin 64) (x : Word) : (s.setW t x).moves = s.moves := rfl

/-! `setBlk` -/

@[simp] theorem State.setBlk_h (s : State) (x : Vector Byte 64) : (s.setBlk x).h = s.h := rfl
@[simp] theorem State.setBlk_v (s : State) (x : Vector Byte 64) : (s.setBlk x).v = s.v := rfl
@[simp] theorem State.setBlk_w (s : State) (x : Vector Byte 64) : (s.setBlk x).w = s.w := rfl
@[simp] theorem State.setBlk_blk (s : State) (x : Vector Byte 64) : (s.setBlk x).blk = x := rfl
@[simp] theorem State.setBlk_len (s : State) (x : Vector Byte 64) : (s.setBlk x).len = s.len := rfl
@[simp] theorem State.setBlk_nblk (s : State) (x : Vector Byte 64) : (s.setBlk x).nblk = s.nblk := rfl
@[simp] theorem State.setBlk_n (s : State) (x : Vector Byte 64) : (s.setBlk x).n = s.n := rfl
@[simp] theorem State.setBlk_st (s : State) (x : Vector Byte 64) : (s.setBlk x).st = s.st := rfl
@[simp] theorem State.setBlk_uop (s : State) (x : Vector Byte 64) : (s.setBlk x).uop = s.uop := rfl
@[simp] theorem State.setBlk_idx (s : State) (x : Vector Byte 64) : (s.setBlk x).idx = s.idx := rfl
@[simp] theorem State.setBlk_err (s : State) (x : Vector Byte 64) : (s.setBlk x).err = s.err := rfl
@[simp] theorem State.setBlk_msg (s : State) (x : Vector Byte 64) : (s.setBlk x).msg = s.msg := rfl
@[simp] theorem State.setBlk_msgExtent (s : State) (x : Vector Byte 64) : (s.setBlk x).msgExtent = s.msgExtent := rfl
@[simp] theorem State.setBlk_capBytes (s : State) (x : Vector Byte 64) : (s.setBlk x).capBytes = s.capBytes := rfl
@[simp] theorem State.setBlk_draws (s : State) (x : Vector Byte 64) : (s.setBlk x).draws = s.draws := rfl
@[simp] theorem State.setBlk_moves (s : State) (x : Vector Byte 64) : (s.setBlk x).moves = s.moves := rfl

/-! `setLen` -/

@[simp] theorem State.setLen_h (s : State) (x : BitVec 64) : (s.setLen x).h = s.h := rfl
@[simp] theorem State.setLen_v (s : State) (x : BitVec 64) : (s.setLen x).v = s.v := rfl
@[simp] theorem State.setLen_w (s : State) (x : BitVec 64) : (s.setLen x).w = s.w := rfl
@[simp] theorem State.setLen_blk (s : State) (x : BitVec 64) : (s.setLen x).blk = s.blk := rfl
@[simp] theorem State.setLen_len (s : State) (x : BitVec 64) : (s.setLen x).len = x := rfl
@[simp] theorem State.setLen_nblk (s : State) (x : BitVec 64) : (s.setLen x).nblk = s.nblk := rfl
@[simp] theorem State.setLen_n (s : State) (x : BitVec 64) : (s.setLen x).n = s.n := rfl
@[simp] theorem State.setLen_st (s : State) (x : BitVec 64) : (s.setLen x).st = s.st := rfl
@[simp] theorem State.setLen_uop (s : State) (x : BitVec 64) : (s.setLen x).uop = s.uop := rfl
@[simp] theorem State.setLen_idx (s : State) (x : BitVec 64) : (s.setLen x).idx = s.idx := rfl
@[simp] theorem State.setLen_err (s : State) (x : BitVec 64) : (s.setLen x).err = s.err := rfl
@[simp] theorem State.setLen_msg (s : State) (x : BitVec 64) : (s.setLen x).msg = s.msg := rfl
@[simp] theorem State.setLen_msgExtent (s : State) (x : BitVec 64) : (s.setLen x).msgExtent = s.msgExtent := rfl
@[simp] theorem State.setLen_capBytes (s : State) (x : BitVec 64) : (s.setLen x).capBytes = s.capBytes := rfl
@[simp] theorem State.setLen_draws (s : State) (x : BitVec 64) : (s.setLen x).draws = s.draws := rfl
@[simp] theorem State.setLen_moves (s : State) (x : BitVec 64) : (s.setLen x).moves = s.moves := rfl

/-! `setNblk` -/

@[simp] theorem State.setNblk_h (s : State) (x : BitVec 56) : (s.setNblk x).h = s.h := rfl
@[simp] theorem State.setNblk_v (s : State) (x : BitVec 56) : (s.setNblk x).v = s.v := rfl
@[simp] theorem State.setNblk_w (s : State) (x : BitVec 56) : (s.setNblk x).w = s.w := rfl
@[simp] theorem State.setNblk_blk (s : State) (x : BitVec 56) : (s.setNblk x).blk = s.blk := rfl
@[simp] theorem State.setNblk_len (s : State) (x : BitVec 56) : (s.setNblk x).len = s.len := rfl
@[simp] theorem State.setNblk_nblk (s : State) (x : BitVec 56) : (s.setNblk x).nblk = x := rfl
@[simp] theorem State.setNblk_n (s : State) (x : BitVec 56) : (s.setNblk x).n = s.n := rfl
@[simp] theorem State.setNblk_st (s : State) (x : BitVec 56) : (s.setNblk x).st = s.st := rfl
@[simp] theorem State.setNblk_uop (s : State) (x : BitVec 56) : (s.setNblk x).uop = s.uop := rfl
@[simp] theorem State.setNblk_idx (s : State) (x : BitVec 56) : (s.setNblk x).idx = s.idx := rfl
@[simp] theorem State.setNblk_err (s : State) (x : BitVec 56) : (s.setNblk x).err = s.err := rfl
@[simp] theorem State.setNblk_msg (s : State) (x : BitVec 56) : (s.setNblk x).msg = s.msg := rfl
@[simp] theorem State.setNblk_msgExtent (s : State) (x : BitVec 56) : (s.setNblk x).msgExtent = s.msgExtent := rfl
@[simp] theorem State.setNblk_capBytes (s : State) (x : BitVec 56) : (s.setNblk x).capBytes = s.capBytes := rfl
@[simp] theorem State.setNblk_draws (s : State) (x : BitVec 56) : (s.setNblk x).draws = s.draws := rfl
@[simp] theorem State.setNblk_moves (s : State) (x : BitVec 56) : (s.setNblk x).moves = s.moves := rfl

/-! `setN` -/

@[simp] theorem State.setN_h (s : State) (x : BitVec 56) : (s.setN x).h = s.h := rfl
@[simp] theorem State.setN_v (s : State) (x : BitVec 56) : (s.setN x).v = s.v := rfl
@[simp] theorem State.setN_w (s : State) (x : BitVec 56) : (s.setN x).w = s.w := rfl
@[simp] theorem State.setN_blk (s : State) (x : BitVec 56) : (s.setN x).blk = s.blk := rfl
@[simp] theorem State.setN_len (s : State) (x : BitVec 56) : (s.setN x).len = s.len := rfl
@[simp] theorem State.setN_nblk (s : State) (x : BitVec 56) : (s.setN x).nblk = s.nblk := rfl
@[simp] theorem State.setN_n (s : State) (x : BitVec 56) : (s.setN x).n = x := rfl
@[simp] theorem State.setN_st (s : State) (x : BitVec 56) : (s.setN x).st = s.st := rfl
@[simp] theorem State.setN_uop (s : State) (x : BitVec 56) : (s.setN x).uop = s.uop := rfl
@[simp] theorem State.setN_idx (s : State) (x : BitVec 56) : (s.setN x).idx = s.idx := rfl
@[simp] theorem State.setN_err (s : State) (x : BitVec 56) : (s.setN x).err = s.err := rfl
@[simp] theorem State.setN_msg (s : State) (x : BitVec 56) : (s.setN x).msg = s.msg := rfl
@[simp] theorem State.setN_msgExtent (s : State) (x : BitVec 56) : (s.setN x).msgExtent = s.msgExtent := rfl
@[simp] theorem State.setN_capBytes (s : State) (x : BitVec 56) : (s.setN x).capBytes = s.capBytes := rfl
@[simp] theorem State.setN_draws (s : State) (x : BitVec 56) : (s.setN x).draws = s.draws := rfl
@[simp] theorem State.setN_moves (s : State) (x : BitVec 56) : (s.setN x).moves = s.moves := rfl

/-! `setSt` -/

@[simp] theorem State.setSt_h (s : State) (x : Status) : (s.setSt x).h = s.h := rfl
@[simp] theorem State.setSt_v (s : State) (x : Status) : (s.setSt x).v = s.v := rfl
@[simp] theorem State.setSt_w (s : State) (x : Status) : (s.setSt x).w = s.w := rfl
@[simp] theorem State.setSt_blk (s : State) (x : Status) : (s.setSt x).blk = s.blk := rfl
@[simp] theorem State.setSt_len (s : State) (x : Status) : (s.setSt x).len = s.len := rfl
@[simp] theorem State.setSt_nblk (s : State) (x : Status) : (s.setSt x).nblk = s.nblk := rfl
@[simp] theorem State.setSt_n (s : State) (x : Status) : (s.setSt x).n = s.n := rfl
@[simp] theorem State.setSt_st (s : State) (x : Status) : (s.setSt x).st = x := rfl
@[simp] theorem State.setSt_uop (s : State) (x : Status) : (s.setSt x).uop = s.uop := rfl
@[simp] theorem State.setSt_idx (s : State) (x : Status) : (s.setSt x).idx = s.idx := rfl
@[simp] theorem State.setSt_err (s : State) (x : Status) : (s.setSt x).err = s.err := rfl
@[simp] theorem State.setSt_msg (s : State) (x : Status) : (s.setSt x).msg = s.msg := rfl
@[simp] theorem State.setSt_msgExtent (s : State) (x : Status) : (s.setSt x).msgExtent = s.msgExtent := rfl
@[simp] theorem State.setSt_capBytes (s : State) (x : Status) : (s.setSt x).capBytes = s.capBytes := rfl
@[simp] theorem State.setSt_draws (s : State) (x : Status) : (s.setSt x).draws = s.draws := rfl
@[simp] theorem State.setSt_moves (s : State) (x : Status) : (s.setSt x).moves = s.moves := rfl

/-! `setErr` -/

@[simp] theorem State.setErr_h (s : State) (x : ErrCode) : (s.setErr x).h = s.h := rfl
@[simp] theorem State.setErr_v (s : State) (x : ErrCode) : (s.setErr x).v = s.v := rfl
@[simp] theorem State.setErr_w (s : State) (x : ErrCode) : (s.setErr x).w = s.w := rfl
@[simp] theorem State.setErr_blk (s : State) (x : ErrCode) : (s.setErr x).blk = s.blk := rfl
@[simp] theorem State.setErr_len (s : State) (x : ErrCode) : (s.setErr x).len = s.len := rfl
@[simp] theorem State.setErr_nblk (s : State) (x : ErrCode) : (s.setErr x).nblk = s.nblk := rfl
@[simp] theorem State.setErr_n (s : State) (x : ErrCode) : (s.setErr x).n = s.n := rfl
@[simp] theorem State.setErr_st (s : State) (x : ErrCode) : (s.setErr x).st = s.st := rfl
@[simp] theorem State.setErr_uop (s : State) (x : ErrCode) : (s.setErr x).uop = s.uop := rfl
@[simp] theorem State.setErr_idx (s : State) (x : ErrCode) : (s.setErr x).idx = s.idx := rfl
@[simp] theorem State.setErr_err (s : State) (x : ErrCode) : (s.setErr x).err = x := rfl
@[simp] theorem State.setErr_msg (s : State) (x : ErrCode) : (s.setErr x).msg = s.msg := rfl
@[simp] theorem State.setErr_msgExtent (s : State) (x : ErrCode) : (s.setErr x).msgExtent = s.msgExtent := rfl
@[simp] theorem State.setErr_capBytes (s : State) (x : ErrCode) : (s.setErr x).capBytes = s.capBytes := rfl
@[simp] theorem State.setErr_draws (s : State) (x : ErrCode) : (s.setErr x).draws = s.draws := rfl
@[simp] theorem State.setErr_moves (s : State) (x : ErrCode) : (s.setErr x).moves = s.moves := rfl

/-! `seq` -/

@[simp] theorem State.seq_h (s : State) (u : Uop) (i : BitVec 6) : (s.seq u i).h = s.h := rfl
@[simp] theorem State.seq_v (s : State) (u : Uop) (i : BitVec 6) : (s.seq u i).v = s.v := rfl
@[simp] theorem State.seq_w (s : State) (u : Uop) (i : BitVec 6) : (s.seq u i).w = s.w := rfl
@[simp] theorem State.seq_blk (s : State) (u : Uop) (i : BitVec 6) : (s.seq u i).blk = s.blk := rfl
@[simp] theorem State.seq_len (s : State) (u : Uop) (i : BitVec 6) : (s.seq u i).len = s.len := rfl
@[simp] theorem State.seq_nblk (s : State) (u : Uop) (i : BitVec 6) : (s.seq u i).nblk = s.nblk := rfl
@[simp] theorem State.seq_n (s : State) (u : Uop) (i : BitVec 6) : (s.seq u i).n = s.n := rfl
@[simp] theorem State.seq_st (s : State) (u : Uop) (i : BitVec 6) : (s.seq u i).st = s.st := rfl
@[simp] theorem State.seq_uop (s : State) (u : Uop) (i : BitVec 6) : (s.seq u i).uop = u := rfl
@[simp] theorem State.seq_idx (s : State) (u : Uop) (i : BitVec 6) : (s.seq u i).idx = i := rfl
@[simp] theorem State.seq_err (s : State) (u : Uop) (i : BitVec 6) : (s.seq u i).err = s.err := rfl
@[simp] theorem State.seq_msg (s : State) (u : Uop) (i : BitVec 6) : (s.seq u i).msg = s.msg := rfl
@[simp] theorem State.seq_msgExtent (s : State) (u : Uop) (i : BitVec 6) : (s.seq u i).msgExtent = s.msgExtent := rfl
@[simp] theorem State.seq_capBytes (s : State) (u : Uop) (i : BitVec 6) : (s.seq u i).capBytes = s.capBytes := rfl
@[simp] theorem State.seq_draws (s : State) (u : Uop) (i : BitVec 6) : (s.seq u i).draws = s.draws := rfl
@[simp] theorem State.seq_moves (s : State) (u : Uop) (i : BitVec 6) : (s.seq u i).moves = s.moves := rfl

/-! `setMoves` -/

@[simp] theorem State.setMoves_h (s : State) (ms : List Move) : (s.setMoves ms).h = s.h := rfl
@[simp] theorem State.setMoves_v (s : State) (ms : List Move) : (s.setMoves ms).v = s.v := rfl
@[simp] theorem State.setMoves_w (s : State) (ms : List Move) : (s.setMoves ms).w = s.w := rfl
@[simp] theorem State.setMoves_blk (s : State) (ms : List Move) : (s.setMoves ms).blk = s.blk := rfl
@[simp] theorem State.setMoves_len (s : State) (ms : List Move) : (s.setMoves ms).len = s.len := rfl
@[simp] theorem State.setMoves_nblk (s : State) (ms : List Move) : (s.setMoves ms).nblk = s.nblk := rfl
@[simp] theorem State.setMoves_n (s : State) (ms : List Move) : (s.setMoves ms).n = s.n := rfl
@[simp] theorem State.setMoves_st (s : State) (ms : List Move) : (s.setMoves ms).st = s.st := rfl
@[simp] theorem State.setMoves_uop (s : State) (ms : List Move) : (s.setMoves ms).uop = s.uop := rfl
@[simp] theorem State.setMoves_idx (s : State) (ms : List Move) : (s.setMoves ms).idx = s.idx := rfl
@[simp] theorem State.setMoves_err (s : State) (ms : List Move) : (s.setMoves ms).err = s.err := rfl
@[simp] theorem State.setMoves_msg (s : State) (ms : List Move) : (s.setMoves ms).msg = s.msg := rfl
@[simp] theorem State.setMoves_msgExtent (s : State) (ms : List Move) : (s.setMoves ms).msgExtent = s.msgExtent := rfl
@[simp] theorem State.setMoves_capBytes (s : State) (ms : List Move) : (s.setMoves ms).capBytes = s.capBytes := rfl
@[simp] theorem State.setMoves_draws (s : State) (ms : List Move) : (s.setMoves ms).draws = s.draws := rfl
@[simp] theorem State.setMoves_moves (s : State) (ms : List Move) : (s.setMoves ms).moves = ms := rfl

/-! `startOperation` -/

@[simp] theorem State.startOperation_h (s : State) : (s.startOperation).h = s.h := rfl
@[simp] theorem State.startOperation_v (s : State) : (s.startOperation).v = s.v := rfl
@[simp] theorem State.startOperation_w (s : State) : (s.startOperation).w = s.w := rfl
@[simp] theorem State.startOperation_blk (s : State) : (s.startOperation).blk = s.blk := rfl
@[simp] theorem State.startOperation_len (s : State) : (s.startOperation).len = s.len := rfl
@[simp] theorem State.startOperation_nblk (s : State) : (s.startOperation).nblk = s.nblk := rfl
@[simp] theorem State.startOperation_n (s : State) : (s.startOperation).n = s.n := rfl
@[simp] theorem State.startOperation_st (s : State) : (s.startOperation).st = .busy := rfl
@[simp] theorem State.startOperation_uop (s : State) : (s.startOperation).uop = .init := rfl
@[simp] theorem State.startOperation_idx (s : State) : (s.startOperation).idx = 0 := rfl
@[simp] theorem State.startOperation_err (s : State) : (s.startOperation).err = .noError := rfl
@[simp] theorem State.startOperation_msg (s : State) : (s.startOperation).msg = s.msg := rfl
@[simp] theorem State.startOperation_msgExtent (s : State) : (s.startOperation).msgExtent = s.msgExtent := rfl
@[simp] theorem State.startOperation_capBytes (s : State) : (s.startOperation).capBytes = s.capBytes := rfl
@[simp] theorem State.startOperation_draws (s : State) : (s.startOperation).draws = s.draws := rfl
@[simp] theorem State.startOperation_moves (s : State) : (s.startOperation).moves = s.moves := rfl

/-! `raiseFault` -/

@[simp] theorem State.raiseFault_h (s : State) (c : ErrCode) : (s.raiseFault c).h = s.h := rfl
@[simp] theorem State.raiseFault_v (s : State) (c : ErrCode) : (s.raiseFault c).v = s.v := rfl
@[simp] theorem State.raiseFault_w (s : State) (c : ErrCode) : (s.raiseFault c).w = s.w := rfl
@[simp] theorem State.raiseFault_blk (s : State) (c : ErrCode) : (s.raiseFault c).blk = s.blk := rfl
@[simp] theorem State.raiseFault_len (s : State) (c : ErrCode) : (s.raiseFault c).len = s.len := rfl
@[simp] theorem State.raiseFault_nblk (s : State) (c : ErrCode) : (s.raiseFault c).nblk = s.nblk := rfl
@[simp] theorem State.raiseFault_n (s : State) (c : ErrCode) : (s.raiseFault c).n = s.n := rfl
@[simp] theorem State.raiseFault_st (s : State) (c : ErrCode) : (s.raiseFault c).st = .error := rfl
@[simp] theorem State.raiseFault_uop (s : State) (c : ErrCode) : (s.raiseFault c).uop = .wait := rfl
@[simp] theorem State.raiseFault_idx (s : State) (c : ErrCode) : (s.raiseFault c).idx = 0 := rfl
@[simp] theorem State.raiseFault_err (s : State) (c : ErrCode) : (s.raiseFault c).err = c := rfl
@[simp] theorem State.raiseFault_msg (s : State) (c : ErrCode) : (s.raiseFault c).msg = s.msg := rfl
@[simp] theorem State.raiseFault_msgExtent (s : State) (c : ErrCode) : (s.raiseFault c).msgExtent = s.msgExtent := rfl
@[simp] theorem State.raiseFault_capBytes (s : State) (c : ErrCode) : (s.raiseFault c).capBytes = s.capBytes := rfl
@[simp] theorem State.raiseFault_draws (s : State) (c : ErrCode) : (s.raiseFault c).draws = s.draws := rfl
@[simp] theorem State.raiseFault_moves (s : State) (c : ErrCode) : (s.raiseFault c).moves = s.moves := rfl

/-! ## After an indexed micro-operation: `uop` and `idx` are written, every other field is kept -/

theorem State.seqAfterLdw_eq (s : State) (t : Fin 16) : s.seqAfterLdw t =
    s.seq (if t.val < 15 then .ldw else .expw) (if t.val < 15 then BitVec.ofNat 6 (t.val + 1) else 16) := by
  unfold State.seqAfterLdw; split <;> rfl

theorem State.seqAfterExpw_eq (s : State) (t : Fin 64) : s.seqAfterExpw t =
    s.seq (if t.val < 63 then .expw else .ldv) (if t.val < 63 then BitVec.ofNat 6 (t.val + 1) else 0) := by
  unfold State.seqAfterExpw; split <;> rfl

theorem State.seqAfterRnd_eq (s : State) (j : Fin 64) : s.seqAfterRnd j =
    s.seq (if j.val < 63 then .rnd else .ffwd) (if j.val < 63 then BitVec.ofNat 6 (j.val + 1) else 0) := by
  unfold State.seqAfterRnd; split <;> rfl

theorem State.seqAfterFfwd_eq (s : State) (n : Nat) : s.seqAfterFfwd n =
    (s.setSt (if n + 1 < s.nblk.toNat then s.st else .done)).seq
      (if n + 1 < s.nblk.toNat then .padblk else .wait) 0 := by
  unfold State.seqAfterFfwd; split <;> rfl

/-- The message space after reset is in canonical form. -/
theorem reset_message_wf : Memory.wf State.reset.msgExtent.val State.reset.msg = true := rfl

end Sys2Proof.Machine
end

