-- ==== Sys2Proof/Laws/Ops.lean ====
section
/-! SUPPORT. What each shared operation can do, once: the length check, the narrowing of a count, the control word and
its decoding, the reads of `PADBLK`, fetching and placing. -/

namespace Sys2Proof.Machine

/-! ## The length check -/

theorem lengthCheck_overflow {len extent cap : Nat} (h : 2 ^ 61 ≤ len) :
    lengthCheck len extent cap = .lengthOverflow := if_pos h

theorem lengthCheck_mismatch {len extent cap : Nat} (h : len < 2 ^ 61) (he : extent < len) :
    lengthCheck len extent cap = .lengthMismatch := by
  rw [lengthCheck, if_neg (by unfold Config.lenLimit; omega), if_pos he]

theorem lengthCheck_allocation {len extent cap : Nat} (h : len < 2 ^ 61) (he : len ≤ extent) (hc : cap < len) :
    lengthCheck len extent cap = .allocationFailure := by
  rw [lengthCheck, if_neg (by unfold Config.lenLimit; omega), if_neg (by omega), if_pos hc]

/-- A length passes the check exactly when it is in the domain, is available, and is within the capacity. -/
theorem lengthCheck_ok {len extent cap : Nat} :
    lengthCheck len extent cap = .noError ↔ len < 2 ^ 61 ∧ len ≤ extent ∧ len ≤ cap := by
  unfold lengthCheck Config.lenLimit
  split
  · simp; omega
  · split
    · simp; omega
    · split
      · simp; omega
      · simp; omega

/-- What an accepted `HASH` leaves, in one line for each register it writes (R172, R204). -/
theorem acceptHash_cases (len : BitVec 64) (s : State) :
    (lengthCheck len.toNat s.msgExtent.val s.capBytes.val = .noError ∧
      acceptHash len s = (s.setLen len).startOperation) ∨
    (lengthCheck len.toNat s.msgExtent.val s.capBytes.val ≠ .noError ∧
      acceptHash len s = (s.setLen len).raiseFault (lengthCheck len.toNat s.msgExtent.val s.capBytes.val)) := by
  unfold acceptHash
  split
  · next h => exact .inl ⟨h, rfl⟩
  · next h => exact .inr ⟨h, rfl⟩

/-! ## Counts -/

theorem narrowCount_toNat {x : Nat} (h : x < 2 ^ 56) : (narrowCount x).toNat = x := by
  rw [narrowCount, if_pos h, BitVec.toNat_ofNat, Nat.mod_eq_of_lt h]

/-! ## The control word -/

@[simp] theorem Uop.ofCode_code (u : Uop) : Uop.ofCode u.code = u := by cases u <;> rfl

@[simp] theorem Uop.code_ofCode (c : BitVec 3) : (Uop.ofCode c).code = c := by
  revert c; decide

@[simp] theorem controlWord_uop (u : BitVec 3) (i : BitVec 6) : (u ++ i).extractLsb' 6 3 = u := by
  revert u i; decide

@[simp] theorem controlWord_idx (u : BitVec 3) (i : BitVec 6) : (u ++ i).extractLsb' 0 6 = i := by
  revert u i; decide

theorem controlWord_fields (w : BitVec 9) : w.extractLsb' 6 3 ++ w.extractLsb' 0 6 = w := by
  revert w; decide

/-- Decoding the control word in the sequencer, by `UOP`. -/
theorem decode_sequencer (u : Uop) (i : BitVec 6) : decode (.control (u.code ++ i)) =
    match u with
    | .wait => if i = 0 then .ok .wait else .error (.reservedControl (u.code ++ i))
    | .init => if i = 0 then .ok .init else .error (.reservedControl (u.code ++ i))
    | .padblk => if i = 0 then .ok .padblk else .error (.reservedControl (u.code ++ i))
    | .ldw => if h : i.toNat < 16 then .ok (.ldw ⟨i.toNat, h⟩) else .error (.reservedControl (u.code ++ i))
    | .expw => if 16 ≤ i.toNat then .ok (.expw ⟨i.toNat, i.isLt⟩) else .error (.reservedControl (u.code ++ i))
    | .ldv => if i = 0 then .ok .ldv else .error (.reservedControl (u.code ++ i))
    | .rnd => .ok (.rnd ⟨i.toNat, i.isLt⟩)
    | .ffwd => if i = 0 then .ok .ffwd else .error (.reservedControl (u.code ++ i)) := by
  cases u <;> simp only [decode, decodeControl, controlWord_uop, controlWord_idx, indexZero, indexLdw, indexExpw] <;> rfl

/-- Which (`UOP`, `IDX`) decode to an instruction: exactly the legal control words (R84). -/
theorem decode_sequencer_ok {u : Uop} {k : BitVec 6} {i : Instr} (h : decode (.control (u.code ++ k)) = .ok i) :
    (u = .wait ∧ k = 0 ∧ i = .wait) ∨ (u = .init ∧ k = 0 ∧ i = .init) ∨ (u = .padblk ∧ k = 0 ∧ i = .padblk) ∨
    (u = .ldw ∧ ∃ t : Fin 16, k.toNat = t.val ∧ i = .ldw t) ∨
    (u = .expw ∧ ∃ t : Fin 64, k.toNat = t.val ∧ 16 ≤ t.val ∧ i = .expw t) ∨ (u = .ldv ∧ k = 0 ∧ i = .ldv) ∨
    (u = .rnd ∧ ∃ j : Fin 64, k.toNat = j.val ∧ i = .rnd j) ∨ (u = .ffwd ∧ k = 0 ∧ i = .ffwd) := by
  rw [decode_sequencer] at h
  cases u with
  | ldw =>
    by_cases hk : k.toNat < 16
    · simp only [dif_pos hk] at h; cases h; simp
    · simp only [dif_neg hk] at h; cases h
  | expw =>
    by_cases hk : 16 ≤ k.toNat
    · simp only [if_pos hk] at h; cases h; simp [hk]
    · simp only [if_neg hk] at h; cases h
  | rnd => cases h; simp
  | wait | init | padblk | ldv | ffwd =>
    by_cases hk : k = 0
    · simp only [if_pos hk] at h; cases h; simp [hk]
    · simp only [if_neg hk] at h; cases h

/-! ## The command word -/

@[simp] theorem commandWord_op (op : BitVec 2) (arg : BitVec 64) : (op ++ arg).extractLsb' 64 2 = op := by
  apply BitVec.eq_of_getLsbD_eq
  intro j hj
  rw [BitVec.getLsbD_extractLsb', BitVec.getLsbD_append, decide_eq_true hj, if_neg (by omega), Nat.add_sub_cancel_left,
    Bool.true_and]

@[simp] theorem commandWord_arg (op : BitVec 2) (arg : BitVec 64) : (op ++ arg).extractLsb' 0 64 = arg := by
  apply BitVec.eq_of_getLsbD_eq
  intro j hj
  rw [BitVec.getLsbD_extractLsb', BitVec.getLsbD_append, decide_eq_true hj, if_pos (by omega), Nat.zero_add,
    Bool.true_and]

theorem commandWord_fields (w : BitVec 66) : w.extractLsb' 64 2 ++ w.extractLsb' 0 64 = w := by
  apply BitVec.eq_of_getLsbD_eq
  intro j hj
  rw [BitVec.getLsbD_append]
  split
  · next h => rw [BitVec.getLsbD_extractLsb', decide_eq_true h, Nat.zero_add, Bool.true_and]
  · next h =>
    rw [BitVec.getLsbD_extractLsb', decide_eq_true (by omega), Bool.true_and, Nat.add_sub_cancel' (by omega)]

/-- Decoding a command word, by `op`. -/
theorem decode_command (op : BitVec 2) (arg : BitVec 64) : decode (.command (op ++ arg)) =
    if op = 0 then .ok (.nop arg) else if op = 1 then .ok (.hash arg)
    else .error (.reservedCommand (op ++ arg)) := by
  simp only [decode, decodeCommand, commandWord_op, commandWord_arg]
  have hop : op = 0 ∨ op = 1 ∨ op = 2 ∨ op = 3 := by revert op; decide
  rcases hop with rfl | rfl | rfl | rfl <;> rfl

theorem decode_nop (arg : BitVec 64) : decode (.command (0b00#2 ++ arg)) = .ok (.nop arg) := decode_command 0 arg

theorem decode_hash (len : BitVec 64) : decode (.command (0b01#2 ++ len)) = .ok (.hash len) := decode_command 1 len

/-! ## The reads of `PADBLK` -/

theorem State.mem_messageReads (s : State) (a : Nat) : a ∈ s.messageReads ↔
    64 * s.n.toNat ≤ a ∧ a < 64 * s.n.toNat + 64 ∧ a < s.paddedBytes ∧ a < s.len.toNat := by
  simp only [State.messageReads, List.mem_filter, List.mem_map, List.mem_range, decide_eq_true_eq]
  constructor
  · rintro ⟨⟨i, hi, rfl⟩, h⟩; omega
  · rintro ⟨h1, h2, h3⟩; exact ⟨⟨a - 64 * s.n.toNat, by omega, by omega⟩, h3⟩

theorem State.messageReadable_iff (s : State) :
    s.messageReadable = true ↔ ∀ a ∈ s.messageReads, a < s.msgExtent.val := by
  simp [State.messageReadable]

/-! ## Fetching and placing -/

theorem State.fetchControl_busy {s : State} (h : s.st = .busy) :
    s.fetchControl = decode (.control s.controlWord) := by simp [State.fetchControl, h]

theorem State.fetchControl_rest {s : State} (h : s.st ≠ .busy) : s.fetchControl = .ok .wait := by
  simp [State.fetchControl, h]

/-- A placed control word is what the sequencer holds. -/
theorem State.placeControl_controlWord (s : State) (w : BitVec 9) : (s.placeControl w).controlWord = w := by
  have : (s.placeControl w).uop = Uop.ofCode (w.extractLsb' 6 3) ∧ (s.placeControl w).idx = w.extractLsb' 0 6 := by
    unfold State.placeControl
    dsimp only
    split <;> split <;> simp
  simp only [State.controlWord, this.1, this.2, Uop.code_ofCode]
  exact controlWord_fields w

end Sys2Proof.Machine
end

