-- ==== Sys2Proof/Laws/Exec.lean ====
section
/-! SUPPORT. What each instruction can do, once: the state it answers, or where it stops. Proofs cite these and unfold
no meaning. -/

namespace Sys2Proof.Machine

theorem exec_nop (arg : BitVec 64) (s : State) : exec (.nop arg) s = .next s := rfl

theorem exec_hash_busy {s : State} (len : BitVec 64) (h : s.st = .busy) : exec (.hash len) s = .next s := if_pos h

theorem exec_hash_accepted {s : State} (len : BitVec 64) (h : s.st ≠ .busy) :
    exec (.hash len) s = .next (acceptHash len s) := if_neg h

theorem exec_wait (s : State) : exec .wait s = .next s := rfl

theorem exec_init (s : State) :
    exec .init s = .next ((((s.setH IV).setN 0).setNblk (narrowCount (nblkOf s.len.toNat))).seq .padblk 0) := rfl

theorem exec_padblk_readable {s : State} (h : s.messageReadable = true) :
    exec .padblk s = .next ((s.setBlk (padBlock s.message s.len s.paddedBytes s.n.toNat)).seq .ldw 0) := if_pos h

theorem exec_padblk_unreadable {s : State} (h : s.messageReadable ≠ true) :
    exec .padblk s = .fault .readOutsideMessage := if_neg h

theorem exec_ldw (t : Fin 16) (s : State) :
    exec (.ldw t) s = .next ((s.setW (t.castLE (by decide)) (blockWord s.blk t)).seqAfterLdw t) := rfl

theorem exec_expw {t : Fin 64} {s : State} (h : 16 ≤ t.val) :
    exec (.expw t) s = .next ((s.setW t (scheduleWord s.w t)).seqAfterExpw t) := if_pos h

theorem exec_expw_reserved {t : Fin 64} {s : State} (h : ¬ 16 ≤ t.val) :
    exec (.expw t) s = .refused .reservedControlWord := if_neg h

theorem exec_ldv (s : State) : exec .ldv s = .next ((s.setV s.h).seq .rnd 0) := rfl

theorem exec_rnd (j : Fin 64) (s : State) :
    exec (.rnd j) s = .next ((s.setV (roundStep j s.w s.v)).seqAfterRnd j) := rfl

theorem exec_ffwd (s : State) : exec .ffwd s =
    .next (((s.setH (feedForward s.h s.v)).setN (narrowCount (s.n.toNat + 1))).seqAfterFfwd s.n.toNat) := rfl

/-- If an instruction answers a next state, that state is one of these (with the guard under which it is). -/
theorem exec_next {i : Instr} {s t : State} (h : exec i s = .next t) :
    (∃ arg, i = .nop arg ∧ t = s) ∨
    (∃ len, i = .hash len ∧ s.st = .busy ∧ t = s) ∨
    (∃ len, i = .hash len ∧ s.st ≠ .busy ∧ t = acceptHash len s) ∨
    (i = .wait ∧ t = s) ∨
    (i = .init ∧ t = (((s.setH IV).setN 0).setNblk (narrowCount (nblkOf s.len.toNat))).seq .padblk 0) ∨
    (i = .padblk ∧ s.messageReadable = true ∧
      t = (s.setBlk (padBlock s.message s.len s.paddedBytes s.n.toNat)).seq .ldw 0) ∨
    (∃ k, i = .ldw k ∧ t = (s.setW (k.castLE (by decide)) (blockWord s.blk k)).seqAfterLdw k) ∨
    (∃ k, i = .expw k ∧ 16 ≤ k.val ∧ t = (s.setW k (scheduleWord s.w k)).seqAfterExpw k) ∨
    (i = .ldv ∧ t = (s.setV s.h).seq .rnd 0) ∨
    (∃ j, i = .rnd j ∧ t = (s.setV (roundStep j s.w s.v)).seqAfterRnd j) ∨
    (i = .ffwd ∧ t = ((s.setH (feedForward s.h s.v)).setN (narrowCount (s.n.toNat + 1))).seqAfterFfwd s.n.toNat) := by
  cases i with
  | nop arg => exact .inl ⟨arg, rfl, by cases h; rfl⟩
  | hash len =>
    by_cases hb : s.st = .busy
    · rw [exec_hash_busy len hb] at h; cases h; exact .inr (.inl ⟨len, rfl, hb, rfl⟩)
    · rw [exec_hash_accepted len hb] at h; cases h; exact .inr (.inr (.inl ⟨len, rfl, hb, rfl⟩))
  | wait => cases h; exact .inr (.inr (.inr (.inl ⟨rfl, rfl⟩)))
  | init => cases h; exact .inr (.inr (.inr (.inr (.inl ⟨rfl, rfl⟩))))
  | padblk =>
    by_cases hr : s.messageReadable = true
    · rw [exec_padblk_readable hr] at h; cases h
      exact .inr (.inr (.inr (.inr (.inr (.inl ⟨rfl, hr, rfl⟩)))))
    · rw [exec_padblk_unreadable hr] at h; cases h
  | ldw k => cases h; exact .inr (.inr (.inr (.inr (.inr (.inr (.inl ⟨k, rfl, rfl⟩))))))
  | expw k =>
    by_cases hk : 16 ≤ k.val
    · rw [exec_expw hk] at h; cases h
      exact .inr (.inr (.inr (.inr (.inr (.inr (.inr (.inl ⟨k, rfl, hk, rfl⟩)))))))
    · rw [exec_expw_reserved hk] at h; cases h
  | ldv => cases h; exact .inr (.inr (.inr (.inr (.inr (.inr (.inr (.inr (.inl ⟨rfl, rfl⟩))))))))
  | rnd j => cases h; exact .inr (.inr (.inr (.inr (.inr (.inr (.inr (.inr (.inr (.inl ⟨j, rfl, rfl⟩)))))))))
  | ffwd => cases h; exact .inr (.inr (.inr (.inr (.inr (.inr (.inr (.inr (.inr (.inr ⟨rfl, rfl⟩)))))))))

end Sys2Proof.Machine
end

