-- ==== Sys2Proof/Laws/Memory.lean ====
section
/-! SUPPORT. The laws of the message space: read after write, the canonical form is kept, the bytes of a bound message,
and equal bytes are equal lists. -/

namespace Sys2Proof.Machine

@[simp] theorem Memory.read_nil (a : Nat) : Memory.read [] a = 0 := rfl

@[simp] theorem Memory.read_cell (a addr : Nat) (b : Byte) (m : List Host.Cell) :
    Memory.read ((a, b) :: m) addr = if a = addr then b else Memory.read m addr := rfl

theorem Memory.wfFrom_cell (low high a : Nat) (b : Byte) (m : List Host.Cell) :
    Memory.wfFrom low high ((a, b) :: m) = true ↔
      low ≤ a ∧ a < high ∧ b ≠ 0 ∧ Memory.wfFrom (a + 1) high m = true := by
  simp [Memory.wfFrom, and_assoc]

/-- A lower starting bound is a weaker demand. -/
theorem Memory.wfFrom_mono {low low' high : Nat} {m : List Host.Cell} (h : low' ≤ low)
    (hm : Memory.wfFrom low high m = true) : Memory.wfFrom low' high m = true := by
  cases m with
  | nil => rfl
  | cons c m => obtain ⟨a, b⟩ := c; rw [wfFrom_cell] at *; exact ⟨by omega, hm.2⟩

/-- A larger extent is a weaker demand. -/
theorem Memory.wfFrom_extent {low high high' : Nat} {m : List Host.Cell} (h : high ≤ high')
    (hm : Memory.wfFrom low high m = true) : Memory.wfFrom low high' m = true := by
  induction m generalizing low with
  | nil => rfl
  | cons c m ih =>
    obtain ⟨a, b⟩ := c
    rw [wfFrom_cell] at *
    exact ⟨hm.1, by omega, hm.2.2.1, ih hm.2.2.2⟩

/-- Below its starting bound a list reads 0. -/
theorem Memory.read_below {low high addr : Nat} {m : List Host.Cell} (hm : Memory.wfFrom low high m = true)
    (h : addr < low) : Memory.read m addr = 0 := by
  induction m generalizing low with
  | nil => rfl
  | cons c m ih =>
    obtain ⟨a, b⟩ := c
    rw [wfFrom_cell] at hm
    rw [read_cell, if_neg (by omega), ih hm.2.2.2 (by omega)]

/-- From the extent on a list reads 0. -/
theorem Memory.read_beyond {low high addr : Nat} {m : List Host.Cell} (hm : Memory.wfFrom low high m = true)
    (h : high ≤ addr) : Memory.read m addr = 0 := by
  induction m generalizing low with
  | nil => rfl
  | cons c m ih =>
    obtain ⟨a, b⟩ := c
    rw [wfFrom_cell] at hm
    rw [read_cell, if_neg (by omega), ih hm.2.2.2]

theorem Memory.read_cons_same {low high addr : Nat} {b : Byte} {m : List Host.Cell}
    (hm : Memory.wfFrom low high m = true) (h : addr < low) : Memory.read (Memory.cons addr b m) addr = b := by
  unfold Memory.cons
  split
  · next hb => rw [hb]; exact read_below hm h
  · simp

theorem Memory.read_cons_other {addr a : Nat} {b : Byte} {m : List Host.Cell} (h : a ≠ addr) :
    Memory.read (Memory.cons addr b m) a = Memory.read m a := by
  unfold Memory.cons
  split
  · rfl
  · rw [read_cell, if_neg (by omega)]

theorem Memory.wfFrom_cons {low high addr : Nat} {b : Byte} {m : List Host.Cell} (hl : low ≤ addr) (hh : addr < high)
    (hm : Memory.wfFrom (addr + 1) high m = true) : Memory.wfFrom low high (Memory.cons addr b m) = true := by
  unfold Memory.cons
  split
  · exact wfFrom_mono (by omega) hm
  · next hb => rw [wfFrom_cell]; exact ⟨hl, hh, hb, hm⟩

/-- A byte that is not written to reads as before, in every list. -/
theorem Memory.read_write_other {addr a : Nat} (m : List Host.Cell) (b : Byte) (h : a ≠ addr) :
    Memory.read (Memory.write m addr b) a = Memory.read m a := by
  induction m with
  | nil => exact read_cons_other h
  | cons c m ih =>
    obtain ⟨k, c⟩ := c
    unfold Memory.write
    split
    · simp [ih]
    · split
      · next hk => rw [read_cons_other h, read_cell, if_neg (by omega)]
      · exact read_cons_other h

/-- The written byte reads as written, in a list in canonical form. -/
theorem Memory.read_write_same {low high addr : Nat} {m : List Host.Cell} (b : Byte)
    (hm : Memory.wfFrom low high m = true) : Memory.read (Memory.write m addr b) addr = b := by
  induction m generalizing low with
  | nil => exact read_cons_same (low := addr + 1) (high := 0) rfl (by omega)
  | cons c m ih =>
    obtain ⟨k, c⟩ := c
    have hw := (wfFrom_cell ..).mp hm
    unfold Memory.write
    split
    · next hk => rw [read_cell, if_neg (by omega), ih hw.2.2.2]
    · split
      · next hk => subst hk; exact read_cons_same hw.2.2.2 (by omega)
      · exact read_cons_same (low := k) (high := high)
          ((wfFrom_cell ..).mpr ⟨by omega, hw.2⟩) (by omega)

/-- A write keeps the canonical form. -/
theorem Memory.wfFrom_write {low high addr : Nat} {m : List Host.Cell} (b : Byte) (hl : low ≤ addr) (hh : addr < high)
    (hm : Memory.wfFrom low high m = true) : Memory.wfFrom low high (Memory.write m addr b) = true := by
  induction m generalizing low with
  | nil => exact wfFrom_cons hl hh rfl
  | cons c m ih =>
    obtain ⟨k, c⟩ := c
    have hw := (wfFrom_cell ..).mp hm
    unfold Memory.write
    split
    · rw [wfFrom_cell]; exact ⟨hw.1, hw.2.1, hw.2.2.1, ih (by omega) hw.2.2.2⟩
    · split
      · next hk => subst hk; exact wfFrom_cons hl hh hw.2.2.2
      · exact wfFrom_cons hl hh ((wfFrom_cell ..).mpr ⟨by omega, hw.2⟩)

theorem Memory.wf_write {extent addr : Nat} {m : List Host.Cell} (b : Byte) (h : addr < extent)
    (hm : Memory.wf extent m = true) : Memory.wf extent (Memory.write m addr b) = true :=
  wfFrom_write b (Nat.zero_le _) h hm

/-- The cells of a byte sequence are in canonical form. -/
theorem Memory.wfFrom_ofBytes (base : Nat) (bs : List Byte) :
    Memory.wfFrom base (base + bs.length) (Memory.ofBytes base bs) = true := by
  induction bs generalizing base with
  | nil => rfl
  | cons b bs ih =>
    refine wfFrom_cons (by omega) (by simp) ?_
    have := ih (base + 1)
    rwa [show base + 1 + bs.length = base + (b :: bs).length by simp; omega] at this

theorem Memory.wf_ofBytes (bs : List Byte) : Memory.wf bs.length (Memory.ofBytes 0 bs) = true := by
  have := wfFrom_ofBytes 0 bs
  rwa [Nat.zero_add] at this

/-- Byte `i` of a bound message reads at its index. -/
theorem Memory.read_ofBytes (base : Nat) (bs : List Byte) (i : Nat) (h : i < bs.length) :
    Memory.read (Memory.ofBytes base bs) (base + i) = bs[i] := by
  induction bs generalizing base i with
  | nil => simp at h
  | cons b bs ih =>
    unfold Memory.ofBytes
    cases i with
    | zero => exact read_cons_same (wfFrom_ofBytes (base + 1) bs) (by omega)
    | succ i =>
      rw [read_cons_other (by omega), show base + (i + 1) = base + 1 + i by omega]
      exact ih (base + 1) i (by simpa using h)

/-- Two lists in canonical form in which every address reads the same are the same list. -/
theorem Memory.eq_of_read {low high : Nat} {m m' : List Host.Cell} (hm : Memory.wfFrom low high m = true)
    (hm' : Memory.wfFrom low high m' = true) (h : ∀ a, Memory.read m a = Memory.read m' a) : m = m' := by
  induction m generalizing low m' with
  | nil =>
    cases m' with
    | nil => rfl
    | cons c' t' =>
      obtain ⟨a', b'⟩ := c'
      have := h a'
      rw [wfFrom_cell] at hm'
      simp at this
      exact absurd this.symm hm'.2.2.1
  | cons c t ih =>
    obtain ⟨a, b⟩ := c
    have hw := (wfFrom_cell ..).mp hm
    cases m' with
    | nil =>
      have := h a
      simp at this
      exact absurd this hw.2.2.1
    | cons c' t' =>
      obtain ⟨a', b'⟩ := c'
      have hw' := (wfFrom_cell ..).mp hm'
      have key : a = a' := by
        rcases Nat.lt_trichotomy a a' with hlt | heq | hgt
        · have := h a
          rw [read_cell, if_pos rfl, read_cell, if_neg (by omega), read_below hw'.2.2.2 (by omega)] at this
          exact absurd this hw.2.2.1
        · exact heq
        · have := h a'
          rw [read_cell, if_neg (by omega), read_below hw.2.2.2 (by omega), read_cell, if_pos rfl] at this
          exact absurd this.symm hw'.2.2.1
      subst key
      have hb : b = b' := by have := h a; simpa using this
      subst hb
      congr 1
      refine ih hw.2.2.2 hw'.2.2.2 fun x => ?_
      have hx := h x
      rw [read_cell, read_cell] at hx
      by_cases hax : a = x
      · rw [read_below hw.2.2.2 (by omega), read_below hw'.2.2.2 (by omega)]
      · simpa [hax] using hx

end Sys2Proof.Machine
end

