-- ==== Sys2Proof/Laws/PerInstr.lean ====
section
/-! SUPPORT. Per instruction: its encoding matches its row of spec/opcode_table.json (width, mask, match). -/

namespace Sys2Proof.Laws.OpcodeTable

/-- A code word is a control word (9 bits) with the given match under the given mask. -/
def controlRow (mask bits : BitVec 9) : CodeWord → Bool
  | .control w => decide (w &&& mask = bits)
  | .command _ => false

/-- A code word is a command word (66 bits) with the given match under the given mask. -/
def commandRow (mask bits : BitVec 66) : CodeWord → Bool
  | .control _ => false
  | .command w => decide (w &&& mask = bits)

/-- The table's row of an instruction: width, mask and match, as the test of a code word. -/
def row : Instr → CodeWord → Bool
  | .nop _ => commandRow 0x30000000000000000 0x00000000000000000
  | .hash _ => commandRow 0x30000000000000000 0x10000000000000000
  | .wait => controlRow 0x1ff 0x000
  | .init => controlRow 0x1ff 0x040
  | .padblk => controlRow 0x1ff 0x080
  | .ldw _ => controlRow 0x1f0 0x0c0
  | .expw _ => controlRow 0x1c0 0x100
  | .ldv => controlRow 0x1ff 0x140
  | .rnd _ => controlRow 0x1c0 0x180
  | .ffwd => controlRow 0x1ff 0x1c0

/-- The encoding of an instruction matches the instruction's row. -/
def Statement (i : Instr) : Prop := row i (encode i) = true

/-- The table's mask of a command word keeps `op` and clears the argument. -/
theorem command_masked (op : BitVec 2) (arg : BitVec 64) :
    (op ++ arg) &&& (0x30000000000000000 : BitVec 66) = op ++ 0#64 := by
  have hmask : (0x30000000000000000 : BitVec 66) = 0b11#2 ++ 0#64 := by decide
  have hop : op &&& 0b11#2 = op := by revert op; decide
  rw [hmask, BitVec.and_append, hop, BitVec.and_zero]

theorem nop (arg : BitVec 64) : Statement (.nop arg) := decide_eq_true (command_masked 0 arg)

theorem hash (len : BitVec 64) : Statement (.hash len) := decide_eq_true (command_masked 1 len)

theorem wait : Statement .wait := by unfold Statement; decide

theorem init : Statement .init := by unfold Statement; decide

theorem padblk : Statement .padblk := by unfold Statement; decide

theorem ldw (t : Fin 16) : Statement (.ldw t) := by unfold Statement; revert t; decide

theorem expw (t : Fin 64) : Statement (.expw t) := by unfold Statement; revert t; decide

theorem ldv : Statement .ldv := by unfold Statement; decide

theorem rnd (j : Fin 64) : Statement (.rnd j) := by unfold Statement; revert j; decide

theorem ffwd : Statement .ffwd := by unfold Statement; decide

end Sys2Proof.Laws.OpcodeTable
end

