-- ==== Sys2Proof/Laws/Step.lean ====
section
/-! SUPPORT. What a step can do, once: which agent moves, which meaning the engine runs, and a run taken apart. -/

namespace Sys2Proof.Machine

theorem step_noMoves {s : State} (h : s.moves = []) : step s = engineStep s := by
  simp [step, agentStep, h]

theorem step_move {s : State} {m : Move} {ms : List Move} (h : s.moves = m :: ms) :
    step s = moveStep m (s.setMoves ms) := by
  simp [step, agentStep, h]

/-- A step is a move carried out in the state that remains: the listed one, or the engine's. -/
theorem step_eq_moveStep (s : State) : step s = moveStep s.nextMove (s.setMoves s.moves.tail) := by
  cases h : s.moves with
  | nil =>
    rw [step_noMoves h]
    have : s.setMoves [] = s := by cases s; cases h; rfl
    simp [State.nextMove, h, moveStep, this]
  | cons m ms => simp [step_move h, State.nextMove, h]

theorem engineStep_decoded {s : State} {i : Instr} (hb : s.st = .busy)
    (hd : decode (.control s.controlWord) = .ok i) : engineStep s = exec i s := by
  simp [engineStep, State.fetchControl_busy hb, hd]

theorem engineStep_rest {s : State} (h : s.st ≠ .busy) : engineStep s = .next s := by
  simp [engineStep, State.fetchControl_rest h, exec, execWait]

/-- One engine step by `UOP` and `IDX`, while BUSY. -/
theorem engineStep_sequencer {s : State} {u : Uop} {k : BitVec 6} {i : Instr} (hb : s.st = .busy) (hu : s.uop = u)
    (hk : s.idx = k) (hd : decode (.control (u.code ++ k)) = .ok i) : engineStep s = exec i s :=
  engineStep_decoded hb (by rw [State.controlWord, hu, hk]; exact hd)

theorem commandStep_decoded {s : State} {w : BitVec 66} {i : Instr} (hd : decode (.command w) = .ok i) :
    commandStep w s = exec i s := by simp [commandStep, hd]

/-- What a presented command word can do: nothing, or what an accepted `HASH` does. -/
theorem commandStep_cases (w : BitVec 66) (s : State) : commandStep w s = .next s ∨
    ∃ len, decode (.command w) = .ok (.hash len) ∧ s.st ≠ .busy ∧ commandStep w s = .next (acceptHash len s) := by
  rw [← commandWord_fields w]
  generalize w.extractLsb' 64 2 = op
  generalize w.extractLsb' 0 64 = arg
  rw [commandStep, decode_command]
  by_cases h0 : op = 0
  · subst h0; exact .inl rfl
  by_cases h1 : op = 1
  · subst h1
    by_cases hb : s.st = .busy
    · left; exact exec_hash_busy arg hb
    · exact .inr ⟨arg, rfl, hb, exec_hash_accepted arg hb⟩
  · rw [if_neg h0, if_neg h1]; exact .inl rfl

/-- What the engine's step can do when it answers a next state: rest, or run the decoded micro-operation. -/
theorem engineStep_cases {s t : State} (h : engineStep s = .next t) :
    (s.st ≠ .busy ∧ t = s) ∨
    ∃ i, s.st = .busy ∧ decode (.control (s.uop.code ++ s.idx)) = .ok i ∧ exec i s = .next t := by
  by_cases hb : s.st = .busy
  · rw [engineStep, State.fetchControl_busy hb, State.controlWord] at h
    cases hd : decode (.control (s.uop.code ++ s.idx)) with
    | ok i => rw [hd] at h; exact .inr ⟨i, hb, rfl, h⟩
    | error r => rw [hd] at h; cases h
  · rw [engineStep_rest hb] at h; cases h; exact .inl ⟨hb, rfl⟩

/-! ## Runs of the machine -/

@[simp] theorem runSteps_zero (s : State) : runSteps 0 s = .next s := rfl

theorem runSteps_succ {s t : State} (k : Nat) (h : step s = .next t) : runSteps (k + 1) s = runSteps k t := by
  simp [runSteps, h]

theorem runSteps_one {s t : State} (h : step s = .next t) : runSteps 1 s = .next t := runSteps_succ 0 h

/-- A run of one step and more that ends in a state began with a step to a next state. -/
theorem runSteps_succ_inv {s t : State} {k : Nat} (h : runSteps (k + 1) s = .next t) :
    ∃ u, step s = .next u ∧ runSteps k u = .next t := by
  cases hs : step s with
  | next u => exact ⟨u, rfl, by rwa [runSteps_succ k hs] at h⟩
  | fault r => simp [runSteps, hs] at h
  | refused r => simp [runSteps, hs] at h

/-- A run of `j + k` steps is a run of `j` and then a run of `k`. -/
theorem runSteps_add {s t : State} (j k : Nat) (h : runSteps j s = .next t) : runSteps (j + k) s = runSteps k t := by
  induction j generalizing s with
  | zero => cases h; simp
  | succ j ih =>
    obtain ⟨u, hs, hu⟩ := runSteps_succ_inv h
    rw [Nat.add_right_comm, runSteps_succ _ hs, ih hu]

theorem coreRun_next {M : Host.Core} {s t : M.State} (k : Nat) (h : M.step s = .next t) :
    M.run (k + 1) s = M.run k t := by simp [Host.Core.run, h]

theorem coreRun_fault {M : Host.Core} {s : M.State} {r : M.Fault} (k : Nat) (h : M.step s = .fault r) :
    M.run (k + 1) s = .fault r := by simp [Host.Core.run, h]

theorem coreRun_refused {M : Host.Core} {s : M.State} {r : M.Refusal} (k : Nat) (h : M.step s = .refused r) :
    M.run (k + 1) s = .refused r := by simp [Host.Core.run, h]

/-- A run of the machine is the host's run of its core. -/
theorem runSteps_eq_coreRun (k : Nat) (s : State) : runSteps k s = Host.Core.run Sys2Proof.core k s := by
  induction k generalizing s with
  | zero => rfl
  | succ k ih =>
    cases hs : step s with
    | next u => exact (runSteps_succ k hs).trans ((ih u).trans (coreRun_next (M := Sys2Proof.core) k hs).symm)
    | fault r =>
      exact (show runSteps (k + 1) s = .fault r by simp [runSteps, hs]).trans
        (coreRun_fault (M := Sys2Proof.core) k hs).symm
    | refused r =>
      exact (show runSteps (k + 1) s = .refused r by simp [runSteps, hs]).trans
        (coreRun_refused (M := Sys2Proof.core) k hs).symm

/-! ## One step of each micro-operation, while BUSY and with no move listed -/

theorem step_init {s : State} (hb : s.st = .busy) (hm : s.moves = []) (hu : s.uop = .init) (hi : s.idx = 0) :
    step s = .next ((((s.setH IV).setN 0).setNblk (narrowCount (nblkOf s.len.toNat))).seq .padblk 0) := by
  rw [step_noMoves hm, engineStep_sequencer hb hu hi (i := .init) rfl, exec_init]

theorem step_padblk {s : State} (hb : s.st = .busy) (hm : s.moves = []) (hu : s.uop = .padblk) (hi : s.idx = 0)
    (hr : s.messageReadable = true) :
    step s = .next ((s.setBlk (padBlock s.message s.len s.paddedBytes s.n.toNat)).seq .ldw 0) := by
  rw [step_noMoves hm, engineStep_sequencer hb hu hi (i := .padblk) rfl, exec_padblk_readable hr]

theorem step_ldv {s : State} (hb : s.st = .busy) (hm : s.moves = []) (hu : s.uop = .ldv) (hi : s.idx = 0) :
    step s = .next ((s.setV s.h).seq .rnd 0) := by
  rw [step_noMoves hm, engineStep_sequencer hb hu hi (i := .ldv) rfl, exec_ldv]

theorem step_ffwd {s : State} (hb : s.st = .busy) (hm : s.moves = []) (hu : s.uop = .ffwd) (hi : s.idx = 0) :
    step s = .next
      (((s.setH (feedForward s.h s.v)).setN (narrowCount (s.n.toNat + 1))).seqAfterFfwd s.n.toNat) := by
  rw [step_noMoves hm, engineStep_sequencer hb hu hi (i := .ffwd) rfl, exec_ffwd]

theorem step_ldw {s : State} (t : Fin 16) (hb : s.st = .busy) (hm : s.moves = []) (hu : s.uop = .ldw)
    (hi : s.idx.toNat = t.val) :
    step s = .next ((s.setW (t.castLE (by decide)) (blockWord s.blk t)).seqAfterLdw t) := by
  rw [step_noMoves hm, engineStep_sequencer hb hu rfl (i := .ldw t), exec_ldw]
  have : s.idx.toNat < 16 := by omega
  rw [decode_sequencer]
  simp only [dif_pos this]
  congr 2; exact Fin.ext hi

theorem step_expw {s : State} (t : Fin 64) (h16 : 16 ≤ t.val) (hb : s.st = .busy) (hm : s.moves = [])
    (hu : s.uop = .expw) (hi : s.idx.toNat = t.val) :
    step s = .next ((s.setW t (scheduleWord s.w t)).seqAfterExpw t) := by
  rw [step_noMoves hm, engineStep_sequencer hb hu rfl (i := .expw t), exec_expw h16]
  have : 16 ≤ s.idx.toNat := by omega
  rw [decode_sequencer]
  simp only [if_pos this]
  congr 2; exact Fin.ext hi

theorem step_rnd {s : State} (j : Fin 64) (hb : s.st = .busy) (hm : s.moves = []) (hu : s.uop = .rnd)
    (hi : s.idx.toNat = j.val) : step s = .next ((s.setV (roundStep j s.w s.v)).seqAfterRnd j) := by
  rw [step_noMoves hm, engineStep_sequencer hb hu rfl (i := .rnd j), exec_rnd]
  rw [decode_sequencer]
  show Except.ok (Instr.rnd ⟨s.idx.toNat, _⟩) = Except.ok (Instr.rnd j)
  congr 2; exact Fin.ext hi

end Sys2Proof.Machine
end

