-- ==== Sys2Proof/Tests/Slice0.lean ====
section
/-! SUPPORT. The model's own tests, with values from spec/95_test_vectors.md, spec/96_traces.md and the rules' examples,
and for every statement with hypotheses a concrete state and operands that meet them. -/

namespace Sys2Proof.Tests

open Sys2Proof.Machine

/-! ## Helpers -/

/-- The outcome is a next state of which `p` holds. -/
def nextIs (o : Host.Outcome State Fault Refusal) (p : State → Bool) : Bool :=
  match o with
  | .next t => p t
  | .fault _ => false
  | .refused _ => false

/-- The outcome is the fault `r`. -/
def faultIs (o : Host.Outcome State Fault Refusal) (r : Fault) : Bool :=
  match o with
  | .next _ => false
  | .fault r' => decide (r' = r)
  | .refused _ => false

/-- The outcome is the refusal `r`. -/
def refusedIs (o : Host.Outcome State Fault Refusal) (r : Refusal) : Bool :=
  match o with
  | .next _ => false
  | .fault _ => false
  | .refused r' => decide (r' = r)

/-- The decoder refuses a code word. -/
def rejects (c : CodeWord) : Bool :=
  match decode c with
  | .ok _ => false
  | .error _ => true

/-- The decoder reads the instruction `i`. -/
def reads (c : CodeWord) (i : Instr) : Bool :=
  match decode c with
  | .ok j => decide (j = i)
  | .error _ => false

/-- After reset, with the message "abc" available. -/
def abc : State := { State.reset with
  msg := Memory.ofBytes 0 [0x61, 0x62, 0x63]
  msgExtent := ⟨3, by decide⟩ }

/-- An operation on "abc" in progress, at micro-operation (`u`, `k`). -/
def abcAt (u : Uop) (k : BitVec 6) : State := { abc with
  len := 3
  nblk := 1
  st := .busy
  uop := u
  idx := k }

/-- `HASH` on `abc` with an extent and a capacity leaves this `ST`, `ERR`, `UOP`, and the operand in `LEN`. -/
def hashGives (extent : Fin (2 ^ 64)) (cap : Fin (2 ^ 61)) (len : BitVec 64) (st : Status) (err : ErrCode)
    (u : Uop) : Bool :=
  nextIs (exec (.hash len) { abc with msgExtent := extent, capBytes := cap }) fun t =>
    decide (t.st = st ∧ t.err = err ∧ t.uop = u ∧ t.idx = 0 ∧ t.len = len)

/-! ## Well-formedness -/

/-- The one check of `Instr.wellFormed`: `EXPW 15` is refused (R84, R85). -/
theorem test_wellFormed_refuses_expw_15 : (Instr.expw 15).wellFormed = false := by decide

theorem test_wellFormed_admits_expw_16_and_63 :
    (Instr.expw 16).wellFormed = true ∧ (Instr.expw 63).wellFormed = true := by decide

/-! ## Decoding: words from the tables of R81, R82, R84, R85 -/

theorem test_decode_nop : reads (.command 0x00123456789abcdef#66) (.nop 0x0123456789abcdef) = true := by decide

theorem test_decode_hash : reads (.command 0x10000000000000003#66) (.hash 3) = true := by decide

theorem test_decode_reserved_commands :
    rejects (.command 0x20000000000000003#66) = true ∧ rejects (.command 0x30000000000000000#66) = true := by decide

theorem test_decode_wait : reads (.control 0b000000000#9) .wait = true := by decide

theorem test_decode_init : reads (.control 0b001000000#9) .init = true := by decide

theorem test_decode_padblk : reads (.control 0b010000000#9) .padblk = true := by decide

theorem test_decode_ldw : reads (.control 0b011000000#9) (.ldw 0) = true ∧
    reads (.control 0b011001111#9) (.ldw 15) = true ∧ rejects (.control 0b011010000#9) = true := by decide

theorem test_decode_expw : reads (.control 0b100010000#9) (.expw 16) = true ∧
    reads (.control 0b100111111#9) (.expw 63) = true ∧ rejects (.control 0b100001111#9) = true := by decide

theorem test_decode_ldv : reads (.control 0b101000000#9) .ldv = true := by decide

theorem test_decode_rnd : reads (.control 0b110000000#9) (.rnd 0) = true ∧
    reads (.control 0b110111111#9) (.rnd 63) = true := by decide

theorem test_decode_ffwd : reads (.control 0b111000000#9) .ffwd = true := by decide

theorem test_decode_reserved_index : rejects (.control 0b000000001#9) = true ∧
    rejects (.control 0b001000001#9) = true ∧ rejects (.control 0b010100000#9) = true ∧
    rejects (.control 0b101111111#9) = true ∧ rejects (.control 0b111000001#9) = true := by decide

/-! ## The table's numbering -/

theorem test_table_words : decodeTableWord 16 0x0c5 = some (.ldw 5) ∧ decodeTableWord 16 0x13f = some (.expw 63) ∧
    decodeTableWord 16 0x100 = none ∧ decodeTableWord 72 0x10000000000000003 = some (.hash 3) ∧
    decodeTableWord 72 0x20000000000000000 = none ∧ decodeTableWord 16 0x200 = none := by decide

/-- Placed right after reset, the word of `RND 5` runs as the very next step: the sequencer goes on to `RND 6`. -/
theorem test_placed_control_word_runs :
    nextIs (step (State.reset.withFetchWord 16 0x185)) (fun t => decide (t.uop = .rnd ∧ t.idx = 6)) = true := by decide

/-- Placed right after reset, the word of `HASH 0` runs as the very next step. -/
theorem test_placed_command_word_runs :
    nextIs (step (State.reset.withFetchWord 72 0x10000000000000000))
      (fun t => decide (t.st = .busy ∧ t.uop = .init ∧ t.len = 0 ∧ t.moves = [])) = true := by decide

/-! ## Primitives: rows of 95_test_vectors.md section 3 -/

theorem test_rotations_and_shifts : rotr 0xdeadbeef 1 = 0xef56df77 ∧ rotr 0xdeadbeef 7 = 0xdfbd5b7d ∧
    rotr 0xdeadbeef 31 = 0xbd5b7ddf ∧ shr 0xdeadbeef 3 = 0x1bd5b7dd ∧ shr 0xdeadbeef 10 = 0x0037ab6f := by decide

theorem test_sigmas : ssig0 0xdeadbeef = 0xabd31b0b ∧ ssig1 0xdeadbeef = 0x689dbfec ∧
    bsig0 0xdeadbeef = 0xb62e25ac ∧ bsig1 0xdeadbeef = 0x345e14a3 := by decide

theorem test_ch_and_maj_truth_table : ch 0xf0f0f0f0 0xcccccccc 0xaaaaaaaa = 0xcacacaca ∧
    maj 0xf0f0f0f0 0xcccccccc 0xaaaaaaaa = 0xe8e8e8e8 := by decide

theorem test_add_wraps : (0xffffffff : Word) + 1 = 0 ∧ (0x12345678 : Word) + 0xf0000000 = 0x02345678 := by decide

theorem test_big_endian : be32 0xff 0x00 0x00 0x01 = 0xff000001 ∧ be32bytes 0xba7816bf = #v[0xba, 0x78, 0x16, 0xbf] ∧
    be64bytes 0x1c0 = #v[0, 0, 0, 0, 0, 0, 0x01, 0xc0] := by decide

/-! ## Host commands: rows of 95_test_vectors.md section 7 -/

theorem test_nop_in_busy : nextIs (exec (.nop 7) (abcAt .ldw 3)) (fun t => decide (t = abcAt .ldw 3)) = true := by decide

theorem test_hash_accepted_and_faults :
    hashGives 3 Config.defaultCap 3 .busy .noError .init = true ∧
    hashGives 3 Config.defaultCap 0 .busy .noError .init = true ∧
    hashGives 3 Config.defaultCap 4 .error .lengthMismatch .wait = true ∧
    hashGives 3 Config.defaultCap 0x2000000000000000 .error .lengthOverflow .wait = true ∧
    hashGives 3 Config.defaultCap 0x1fffffffffffffff .error .lengthMismatch .wait = true ∧
    hashGives 0x1fffffffffffffff Config.defaultCap 0x1fffffffffffffff .busy .noError .init = true ∧
    hashGives 3 2 3 .error .allocationFailure .wait = true ∧
    hashGives 3 2 4 .error .lengthMismatch .wait = true ∧
    hashGives 3 2 2 .busy .noError .init = true := by decide

/-- Row 6 of the command sequence: `HASH 0` while BUSY is ignored, `LEN` stays 3. -/
theorem test_hash_while_busy : nextIs (exec (.hash 0) (abcAt .ldw 8)) (fun t => decide (t = abcAt .ldw 8)) = true := by
  decide

/-! ## Micro-operations -/

theorem test_wait : nextIs (exec .wait abc) (fun t => decide (t = abc)) = true := by decide

/-- The example of R173: `LEN` = 56. -/
theorem test_init : nextIs (exec .init { abcAt .init 0 with len := 56, nblk := 9, n := 5 })
    (fun t => decide (t.h = #v[0x6a09e667, 0xbb67ae85, 0x3c6ef372, 0xa54ff53a, 0x510e527f, 0x9b05688c, 0x1f83d9ab,
      0x5be0cd19] ∧ t.n = 0 ∧ t.nblk = 2 ∧ t.uop = .padblk)) = true := by decide

/-- The largest legal length, 95_test_vectors.md section 7. -/
theorem test_init_largest : nextIs (exec .init { abcAt .init 0 with len := 0x1fffffffffffffff })
    (fun t => decide (t.nblk = 36028797018963969)) = true := by decide

/-- The example of R126, at the bytes where one case of `P(i)` meets the next. -/
theorem test_padblk : ∃ t, exec .padblk (abcAt .padblk 0) = .next t ∧ t.uop = .ldw ∧ t.blk[0] = 0x61 ∧
    t.blk[2] = 0x63 ∧ t.blk[3] = 0x80 ∧ t.blk[4] = 0x00 ∧ t.blk[62] = 0x00 ∧ t.blk[63] = 0x18 := by
  refine ⟨_, exec_padblk_readable (by decide), rfl, ?_⟩
  simp only [State.seq_blk, State.setBlk_blk, padBlock_get]
  decide

/-- Block 1 of 56 message bytes reads no message byte and holds the length field alone (95_test_vectors.md section 4). -/
theorem test_padblk_second_block : ∃ t, exec .padblk { abcAt .padblk 0 with len := 56, nblk := 2, n := 1 } = .next t ∧
    t.blk[0] = 0x00 ∧ t.blk[55] = 0x00 ∧ t.blk[62] = 0x01 ∧ t.blk[63] = 0xc0 := by
  refine ⟨_, exec_padblk_readable (by decide), ?_⟩
  simp only [State.seq_blk, State.setBlk_blk, padBlock_get]
  decide

/-- The examples of R143. -/
theorem test_ldw : nextIs (exec (.ldw 0) { abcAt .ldw 0 with
      blk := (((State.reset.blk.set 0 0x61).set 1 0x62).set 2 0x63).set 3 0x80 })
    (fun t => decide (t.w[0] = 0x61626380 ∧ t.w[1] = 0 ∧ t.uop = .ldw ∧ t.idx = 1)) = true := by decide

theorem test_ldw_15 : nextIs (exec (.ldw 15) { abcAt .ldw 15 with blk := State.reset.blk.set 63 0x18 })
    (fun t => decide (t.w[15] = 0x00000018 ∧ t.w[0] = 0 ∧ t.uop = .expw ∧ t.idx = 16)) = true := by decide

/-- Word 30 of the schedule of "abc" from the four words it looks at (95_test_vectors.md section 5). -/
theorem test_expw_30 : nextIs (exec (.expw 30) { abcAt .expw 30 with
      w := (((State.reset.w.set 28 0x9d209d67).set 23 0xe2e2c38e).set 15 0x00000018).set 14 0 })
    (fun t => decide (t.w[30] = 0x702138a4 ∧ t.uop = .expw ∧ t.idx = 31)) = true := by decide

/-- The last word of the schedule of "abc", whose sum wraps. -/
theorem test_expw_63 : nextIs (exec (.expw 63) { abcAt .expw 63 with
      w := (((State.reset.w.set 61 0x668b2ff8).set 56 0xef57b9cd).set 48 0xfb3e89cb).set 47 0x065c43da })
    (fun t => decide (t.w[63] = 0x12b1edeb ∧ t.uop = .ldv ∧ t.idx = 0)) = true := by decide

/-- The example of R151. -/
theorem test_ldv : nextIs (exec .ldv { abcAt .ldv 0 with h := IV })
    (fun t => decide (t.v = #v[0x6a09e667, 0xbb67ae85, 0x3c6ef372, 0xa54ff53a, 0x510e527f, 0x9b05688c, 0x1f83d9ab,
      0x5be0cd19] ∧ t.h = IV ∧ t.uop = .rnd ∧ t.idx = 0)) = true := by decide

/-- The example of R153. -/
theorem test_rnd_0 : nextIs (exec (.rnd 0) { abcAt .rnd 0 with v := IV, w := State.reset.w.set 0 0x61626380 })
    (fun t => decide (t.v = #v[0x5d6aebcd, 0x6a09e667, 0xbb67ae85, 0x3c6ef372, 0xfa2a4622, 0x510e527f, 0x9b05688c,
      0x1f83d9ab] ∧ t.uop = .rnd ∧ t.idx = 1)) = true := by decide

/-- Round 63 of "abc" (95_test_vectors.md section 6). -/
theorem test_rnd_63 : nextIs (exec (.rnd 63) { abcAt .rnd 63 with
      v := #v[0xd39a2165, 0x04d24d6c, 0xb85e2ce9, 0xb6ae8fff, 0xfb121210, 0x948d25b6, 0x961f4894, 0xb21bad3d]
      w := State.reset.w.set 63 0x12b1edeb })
    (fun t => decide (t.v = #v[0x506e3058, 0xd39a2165, 0x04d24d6c, 0xb85e2ce9, 0x5ef50f24, 0xfb121210, 0x948d25b6,
      0x961f4894] ∧ t.uop = .ffwd ∧ t.idx = 0)) = true := by decide

/-- The working variables of "abc" after round 63. -/
def abcLast : Vector Word 8 :=
  #v[0x506e3058, 0xd39a2165, 0x04d24d6c, 0xb85e2ce9, 0x5ef50f24, 0xfb121210, 0x948d25b6, 0x961f4894]

/-- The example of R155: the digest of "abc", and DONE. -/
theorem test_ffwd_last : nextIs (exec .ffwd { abcAt .ffwd 0 with h := IV, v := abcLast })
    (fun t => decide (t.h = #v[0xba7816bf, 0x8f01cfea, 0x414140de, 0x5dae2223, 0xb00361a3, 0x96177a9c, 0xb410ff61,
      0xf20015ad] ∧ t.n = 1 ∧ t.st = .done ∧ t.uop = .wait ∧ t.idx = 0)) = true := by decide

theorem test_ffwd_more_blocks : nextIs (exec .ffwd { abcAt .ffwd 0 with nblk := 2 })
    (fun t => decide (t.n = 1 ∧ t.st = .busy ∧ t.uop = .padblk ∧ t.idx = 0)) = true := by decide

/-! ## Stops, reset, and the outputs -/

/-- R85: a reserved control word in the sequencer has no step. -/
theorem test_reserved_control_word : refusedIs (step (abcAt .expw 15)) .reservedControlWord = true := by decide

theorem test_write_outside_message :
    faultIs (step { abc with moves := [.write 3 0x64] }) .writeOutsideMessage = true := by decide

/-- R230, and its example in row 11 of the command sequence. -/
theorem test_reset_while_busy : nextIs (step { abcAt .rnd 40 with moves := [.reset] })
    (fun t => decide (t.st = .idle ∧ t.err = .noError ∧ t.uop = .wait ∧ t.idx = 0 ∧ t.moves = [])) = true := by decide

/-- The digest bytes of "abc" (R56), at both ends of a word. -/
theorem test_digest_bytes : ({ abc with st := .done, h := State.reset.h.set 0 0xba7816bf } : State).digestByte 0 0 = 0xba ∧
    ({ abc with st := .done, h := State.reset.h.set 0 0xba7816bf } : State).digestByte 0 3 = 0xbf := by decide

/-! ## Witnesses: for each statement with hypotheses, a state and operands that meet them all -/

theorem witness_DecodingAnEncodedInstructionGivesItBack :
    (Instr.expw 16).wellFormed = true ∧ (Instr.expw 63).wellFormed = true ∧ (Instr.nop 0).wellFormed = true := by decide

theorem witness_ADecodedWordIsTheEncodingOfItsInstruction :
    decode (.control 0b100010000#9) = .ok (.expw 16) ∧ decode (.command 0x3#66) = .ok (.nop 3) := ⟨rfl, rfl⟩

theorem witness_ReservedControlWordsAreRefusedAndNeverProduced :
    (abcAt .ldw 16).st = .busy ∧ legalControl (abcAt .ldw 16).controlWord = false ∧
      legalControl (abcAt .ldw 15).controlWord = true ∧ ∃ t, exec (.ldw 15) (abcAt .ldw 15) = .next t :=
  ⟨rfl, rfl, rfl, _, exec_ldw 15 _⟩

theorem witness_ReservedCommandWordsAreIgnored :
    2 ≤ ((0x20000000000000000#66).extractLsb' 64 2).toNat ∧ 2 ≤ ((0x3ffffffffffffffff#66).extractLsb' 64 2).toNat ∧
      ({ abc with moves := [.command 0x20000000000000000] } : State).moves = .command 0x20000000000000000 :: [] := by
  decide

/-- The ends of the ranges of shift amounts and bit numbers (also of `SigmaFunctionsMixTheBits` and
`ChooseAndMajorityBitByBit`). -/
theorem witness_RotateAndShiftMoveTheBits : (0 < 1 ∧ 1 < 32) ∧ (0 < 31 ∧ 31 < 32) := by decide

theorem witness_SigmaFunctionsMixTheBits : 0 < 32 ∧ 31 < 32 := by decide

theorem witness_ChooseAndMajorityBitByBit : 0 < 32 ∧ 31 < 32 := by decide

theorem witness_DigestOutputsAreTheHashState : ({ abc with st := .done } : State).digestValid = 1 := rfl

theorem witness_BlockCountIsTheSmallestThatFits :
    55 % 64 ≤ 55 ∧ 56 ≤ 56 % 64 ∧ 56 + 9 ≤ 64 * 2 := by decide

/-- `LEN` = 56: the four cases at their ends; and the largest length of the domain. -/
theorem witness_PaddedBufferByteByByte :
    (55#64).toNat % 64 = 55 ∧ (56#64).toNat % 64 = 56 ∧
      (56#64).toNat < 2 ^ 61 ∧ 64 * nblkOf (56#64).toNat = 128 ∧ 55 < (56#64).toNat ∧
      (56 < 57 ∧ 57 < 128 - 8) ∧ (56 < 119 ∧ 119 < 128 - 8) ∧ (128 - 8 ≤ 120 ∧ 120 < 128) ∧ 128 - 8 ≤ 127 ∧
      (0x1fffffffffffffff#64).toNat < 2 ^ 61 := by decide

theorem witness_TwoTierPaddingDecision : (55#64).toNat < 2 ^ 61 ∧ (55#64).toNat % 64 ≤ 55 ∧
    (56#64).toNat < 2 ^ 61 ∧ 56 ≤ (56#64).toNat % 64 := by decide

theorem witness_PaddedBufferHoldsMessageMarkerAndBitLength :
    (55#64).toNat = 55 ∧ (56#64).toNat = 56 ∧ (0#64).toNat < 2 ^ 61 ∧ (0x1fffffffffffffff#64).toNat < 2 ^ 61 := by decide

theorem witness_PadblkLoadsTheCurrentBlock :
    lengthCheck (abcAt .padblk 0).len.toNat (abcAt .padblk 0).msgExtent.val (abcAt .padblk 0).capBytes.val = .noError ∧
      (abcAt .padblk 0).nblk.toNat = nblkOf (abcAt .padblk 0).len.toNat ∧
      (abcAt .padblk 0).n.toNat < (abcAt .padblk 0).nblk.toNat := by decide

theorem witness_PadblkStopsExactlyOnAMissingMessageByte :
    (∃ a ∈ ({ abcAt .padblk 0 with len := 4 } : State).messageReads, abc.msgExtent.val ≤ a) ∧
      ∀ a ∈ (abcAt .padblk 0).messageReads, a < abc.msgExtent.val := by decide

theorem witness_PadblkSeesOnlyTheBytesItReads :
    (∀ a ∈ (abcAt .padblk 0).messageReads,
      Memory.read (Memory.ofBytes 0 [0x61, 0x62, 0x63, 0x64]) a = (abcAt .padblk 0).message a) ∧
      ∃ t, exec .padblk (abcAt .padblk 0) = .next t :=
  ⟨by decide, _, exec_padblk_readable (by decide)⟩

theorem witness_ExpwComputesOneScheduleWord : 16 ≤ (16 : Fin 64).val ∧ 16 ≤ (63 : Fin 64).val := by decide

theorem witness_ExpwBelowSixteenIsRefused : (0 : Fin 64).val < 16 ∧ (15 : Fin 64).val < 16 := by decide

theorem witness_ExpandIsTheScheduleOfTheBlock : 16 ≤ (16 : Fin 64).val ∧ 16 ≤ (63 : Fin 64).val := by decide

theorem witness_SchedulerRunComputesExpand : (abcAt .ldw 0).st = .busy ∧ (abcAt .ldw 0).uop = .ldw ∧
    (abcAt .ldw 0).idx = 0 ∧ (abcAt .ldw 0).moves = [] := by decide

theorem witness_CompressorRunComputesCompress : (abcAt .ldv 0).st = .busy ∧ (abcAt .ldv 0).uop = .ldv ∧
    (abcAt .ldv 0).idx = 0 ∧ (abcAt .ldv 0).moves = [] ∧ (abcAt .ldv 0).n.toNat + 1 < 2 ^ 56 := by decide

/-- The two clauses about the block counter, at the largest counter that has a successor. -/
theorem witness_FfwdFeedsForwardAndAdvances :
    ({ abcAt .ffwd 0 with n := 0xfffffffffffffe } : State).n.toNat + 1 < 2 ^ 56 ∧
      ({ abcAt .ffwd 0 with nblk := 2 } : State).n.toNat + 1 < ({ abcAt .ffwd 0 with nblk := 2 } : State).nblk.toNat ∧
      ¬ (abcAt .ffwd 0).n.toNat + 1 < (abcAt .ffwd 0).nblk.toNat := by decide

theorem witness_InitLoadsTheInitialHashState :
    ({ abcAt .init 0 with len := 0x1fffffffffffffff } : State).len.toNat < 2 ^ 61 := by decide

/-- Each of the four cases at the ends of its range. -/
theorem witness_HashStartsTheOperationOrRaisesTheFirstCause : abc.st ≠ .busy ∧
    2 ^ 61 ≤ (0x2000000000000000#64).toNat ∧
    ((0x1fffffffffffffff#64).toNat < 2 ^ 61 ∧ abc.msgExtent.val < (0x1fffffffffffffff#64).toNat) ∧
    ((4#64).toNat < 2 ^ 61 ∧ abc.msgExtent.val < (4#64).toNat) ∧
    ((3#64).toNat < 2 ^ 61 ∧ (3#64).toNat ≤ abc.msgExtent.val ∧
      ({ abc with capBytes := 2 } : State).capBytes.val < (3#64).toNat) ∧
    ((3#64).toNat < 2 ^ 61 ∧ (3#64).toNat ≤ abc.msgExtent.val ∧ (3#64).toNat ≤ abc.capBytes.val) := by decide

theorem witness_HashWhileBusyIsIgnored : (abcAt .rnd 7).st = .busy ∧
    ({ abcAt .rnd 7 with moves := [.command (0b01#2 ++ 0#64)] } : State).moves = .command (0b01#2 ++ 0#64) :: [] := by
  decide

theorem witness_WaitChangesNothing : abc.st ≠ .busy ∧ abc.moves = [] := by decide

theorem witness_FaultEntryWritesErrStAndSequencer : abc.moves = [] := rfl

theorem witness_RepeatedFaultIsTheSame : abc.st ≠ .busy ∧
    nextIs (exec (.hash 4) abc) (fun t => decide (t.st = .error)) = true := by decide

theorem witness_ResetAbandonsTheOperation : ({ abcAt .rnd 40 with moves := [.reset] } : State).moves = [.reset] := rfl

/-- Each writer changes its register. -/
theorem witness_EveryRegisterHasOnlyItsWriters : abc.nextMove ≠ .reset ∧
    nextIs (step (abcAt .init 0)) (fun t => decide (t.h ≠ abc.h ∧ t.nblk ≠ 0 ∧ t.n = 0)) = true ∧
    nextIs (step (abcAt .rnd 63)) (fun t => decide (t.v ≠ abc.v)) = true ∧
    nextIs (step { abcAt .ldw 15 with blk := State.reset.blk.set 63 1 }) (fun t => decide (t.w[15] ≠ abc.w[15])) = true ∧
    nextIs (step { abcAt .expw 16 with w := State.reset.w.set 0 1 }) (fun t => decide (t.w[16] ≠ abc.w[16])) = true ∧
    nextIs (step (abcAt .ffwd 0)) (fun t => decide (t.n ≠ abc.n)) = true ∧
    nextIs (step { abc with moves := [.command 0x10000000000000003] }) (fun t => decide (t.len ≠ abc.len)) = true ∧
    ∃ t, step (abcAt .padblk 0) = .next t ∧ t.blk ≠ abc.blk := by
  refine ⟨by decide, by decide, by decide, by decide, by decide, by decide, by decide, _,
    step_padblk rfl rfl rfl rfl (by decide), fun h => ?_⟩
  have h0 := congrArg (fun b : Vector Byte 64 => b[0]) h
  simp only [State.seq_blk, State.setBlk_blk, padBlock_get] at h0
  revert h0
  decide

/-- Every clause: the instruction completes, with the index at the ends of its range. -/
theorem witness_SuccessorOfEveryMicroOperation :
    (abc.st ≠ .busy ∧ nextIs (exec (.hash 3) abc) (fun t => decide (t.st = .busy)) = true) ∧
    (∃ t, exec .init abc = .next t) ∧ (∃ t, exec .padblk (abcAt .padblk 0) = .next t) ∧
    (∃ t, exec (.ldw 14) abc = .next t) ∧ (∃ t, exec (.ldw 15) abc = .next t) ∧
    (∃ t, exec (.expw 16) abc = .next t) ∧ (∃ t, exec (.expw 62) abc = .next t) ∧ (∃ t, exec (.expw 63) abc = .next t) ∧
    (∃ t, exec .ldv abc = .next t) ∧ (∃ t, exec (.rnd 62) abc = .next t) ∧ (∃ t, exec (.rnd 63) abc = .next t) ∧
    (∃ t, exec .ffwd { abcAt .ffwd 0 with nblk := 2 } = .next t) ∧ 0 + 1 < (2#56).toNat ∧
    (∃ t, exec .ffwd (abcAt .ffwd 0) = .next t) ∧ (abcAt .ffwd 0).nblk.toNat ≤ (abcAt .ffwd 0).n.toNat + 1 :=
  ⟨by decide, ⟨_, exec_init _⟩, ⟨_, exec_padblk_readable (by decide)⟩, ⟨_, exec_ldw _ _⟩, ⟨_, exec_ldw _ _⟩,
    ⟨_, exec_expw (by decide)⟩, ⟨_, exec_expw (by decide)⟩, ⟨_, exec_expw (by decide)⟩, ⟨_, exec_ldv _⟩,
    ⟨_, exec_rnd _ _⟩, ⟨_, exec_rnd _ _⟩, ⟨_, exec_ffwd _⟩, by decide, ⟨_, exec_ffwd _⟩, by decide⟩

theorem witness_EngineStepRunsTheDecodedControlWord : (abcAt .expw 16).st = .busy ∧
    decode (.control (abcAt .expw 16).controlWord) = .ok (.expw 16) ∧ (abcAt .expw 16).moves = [] ∧
    ({ abcAt .expw 16 with moves := [.engine] } : State).moves = .engine :: [] := ⟨rfl, rfl, rfl, rfl⟩

theorem witness_CommandMoveRunsTheDecodedCommand :
    ({ abc with moves := [.command 0x10000000000000003] } : State).moves = .command 0x10000000000000003 :: [] ∧
      decode (.command 0x10000000000000003#66) = .ok (.hash 3) := ⟨rfl, rfl⟩

theorem witness_PlacedTableWordIsTheInstructionThatRuns :
    (Instr.expw 16).wellFormed = true ∧ encode (.expw 16) = .control 0b100010000#9 ∧
      (Instr.hash 3).wellFormed = true ∧ encode (.hash 3) = .command 0x10000000000000003#66 := by decide

theorem witness_ResetInputIdlesTheEngine :
    ({ abcAt .rnd 9 with moves := [.reset] } : State).moves = .reset :: [] := rfl

/-- The last byte that exists, and the first that does not. -/
theorem witness_HostWriteChangesOneMessageByte :
    ({ abc with moves := [.write 2 0x64] } : State).moves = .write 2 0x64 :: [] ∧ 2 < abc.msgExtent.val ∧
      Memory.wf abc.msgExtent.val abc.msg = true ∧ abc.msgExtent.val ≤ 3 := by decide

/-- A message of `LEN` bytes while BUSY, one byte less, and (over the largest extent) 2^64 bytes. -/
theorem witness_HostBindMakesTheMessageAvailable :
    ({ abcAt .rnd 0 with moves := [.bind [1, 2, 3]] } : State).moves = .bind [1, 2, 3] :: [] ∧
    ([1, 2, 3] : List Byte).length < 2 ^ 64 ∧
    ¬ ((abcAt .rnd 0).st = .busy ∧ ([1, 2, 3] : List Byte).length < (abcAt .rnd 0).len.toNat) ∧
    (abcAt .rnd 0).st = .busy ∧ ([1, 2] : List Byte).length < (abcAt .rnd 0).len.toNat ∧
    2 ^ 64 ≤ (List.replicate (2 ^ 64) (0 : Byte)).length :=
  ⟨rfl, by decide, by decide, rfl, by decide, by rw [List.length_replicate]⟩

theorem witness_NoInstructionChangesTheMessage : ∃ t, exec .padblk (abcAt .padblk 0) = .next t :=
  ⟨_, exec_padblk_readable (by decide)⟩

/-- One form of each kind, and the last `FFWD` (the one that writes `ST`) beside another. -/
theorem witness_MicroOperationsWriteOnlyTheirRegisters :
    (∃ t, exec .init abc = .next t) ∧ (∃ t, exec .padblk (abcAt .padblk 0) = .next t) ∧
    (∃ t, exec (.ldw 15) abc = .next t) ∧ (∃ t, exec (.expw 16) abc = .next t) ∧
    (∃ t, exec .ldv abc = .next t) ∧ (∃ t, exec (.rnd 63) abc = .next t) ∧ (∃ t, exec .ffwd abc = .next t) ∧
    ({ abcAt .ffwd 0 with nblk := 2 } : State).n.toNat + 1 < (2#56).toNat :=
  ⟨⟨_, exec_init _⟩, ⟨_, exec_padblk_readable (by decide)⟩, ⟨_, exec_ldw _ _⟩, ⟨_, exec_expw (by decide)⟩,
    ⟨_, exec_ldv _⟩, ⟨_, exec_rnd _ _⟩, ⟨_, exec_ffwd _⟩, by decide⟩

theorem witness_HostCommandsWriteOnlyTheirRegisters : (∃ t, exec (.nop 5) abc = .next t) ∧
    (∃ t, exec (.hash 3) abc = .next t) ∧ abc.st ≠ .busy ∧ (∃ t, exec (.hash 3) (abcAt .rnd 1) = .next t) ∧
    (abcAt .rnd 1).st = .busy :=
  ⟨⟨_, exec_nop _ _⟩, ⟨_, exec_hash_accepted _ (by decide)⟩, by decide, ⟨_, exec_hash_busy _ rfl⟩, rfl⟩

theorem witness_HostMovesWhileBusyLeaveTheRegisters : (abcAt .rnd 1).st = .busy ∧
    ({ abcAt .rnd 1 with moves := [.write 2 0x64] } : State).moves = .write 2 0x64 :: [] ∧
    Move.write 2 0x64 ≠ .engine ∧ Move.write 2 0x64 ≠ .reset ∧
    nextIs (step { abcAt .rnd 1 with moves := [.write 2 0x64] }) (fun _ => true) = true := by decide

/-- Each of the three ways a status changes: `HASH` accepted and refused, the last `FFWD`, `RESET`. -/
theorem witness_StatusChangesOnlyByHashFfwdAndReset :
    nextIs (step { abc with moves := [.command 0x10000000000000003] }) (fun t => decide (t.st = .busy)) = true ∧
    nextIs (step { abc with moves := [.command 0x10000000000000004] }) (fun t => decide (t.st = .error)) = true ∧
    nextIs (step (abcAt .ffwd 0)) (fun t => decide (t.st = .done)) = true ∧
    nextIs (step { abcAt .ffwd 0 with moves := [.reset] }) (fun t => decide (t.st = .idle)) = true := by decide

theorem witness_ErrorCodeChangesOnlyByHashAndReset :
    nextIs (step { abc with moves := [.command 0x10000000000000004] }) (fun t => decide (t.err ≠ abc.err)) = true ∧
    nextIs (step { abc with st := .error, err := .lengthMismatch, moves := [.reset] })
      (fun t => decide (t.err = .noError)) = true := by decide

/-- An operation about to load its first block is a good state that agrees with the functional level. -/
theorem abc_inv : State.Inv { abcAt .padblk 0 with h := IV } where
  message := by decide
  waits := by decide
  cause := by decide
  legal := by decide
  domain := by decide
  blocks := by decide
  finished := by decide

theorem witness_BusyEngineAlwaysHasAStep : State.Inv { abcAt .padblk 0 with h := IV } ∧
    ({ abcAt .padblk 0 with h := IV } : State).st = .busy ∧
    ({ abcAt .padblk 0 with h := IV } : State).engineMoves := ⟨abc_inv, rfl, rfl⟩

theorem witness_EveryStepKeepsTheInvariant : State.Inv { abcAt .padblk 0 with h := IV } ∧
    ∃ t, step { abcAt .padblk 0 with h := IV } = .next t :=
  ⟨abc_inv, _, step_padblk rfl rfl rfl rfl (by decide)⟩

theorem witness_EveryStepKeepsTheAgreementWithTheDigest : State.Inv { abcAt .padblk 0 with h := IV } ∧
    State.Agrees { abcAt .padblk 0 with h := IV } ∧
    ∃ t, step { abcAt .padblk 0 with h := IV } = .next t ∧ ∀ a, a < 3 → t.message a = abc.message a :=
  ⟨abc_inv, rfl, _, step_padblk rfl rfl rfl rfl (by decide), fun _ _ => rfl⟩

/-- The largest length that the message "abc" and the default capacity admit. -/
theorem witness_HashRunEndsWithTheDigest :
    ({ abc with moves := [.command (0b01#2 ++ 3#64)] } : State).st ≠ .busy ∧ (3#64).toNat < 2 ^ 61 ∧
    (3#64).toNat ≤ abc.msgExtent.val ∧ (3#64).toNat ≤ abc.capBytes.val ∧ 0 < 1 + 131 * nblkOf (3#64).toNat := by decide

theorem witness_DigestDependsOnTheMessageBytesAlone :
    ∀ a, a < (3#64).toNat → Memory.read (Memory.ofBytes 0 [0x61, 0x62, 0x63, 0x64]) a = abc.message a := by decide

end Sys2Proof.Tests
end

section
/-! What a host move on the message space answers, case by case, and the two statements about it (00_scope.md section 6,
20_memory.md section 1). -/

namespace Sys2Proof.Machine

/-! ## One equation per outcome of a write and of a binding -/

theorem hostWrite_below {addr : Nat} {s : State} (b : Byte) (h : addr < s.msgExtent.val) :
    hostWrite addr b s = .next { s with msg := Memory.write s.msg addr b } := if_pos h

theorem hostWrite_beyond {addr : Nat} {s : State} (b : Byte) (h : s.msgExtent.val ≤ addr) :
    hostWrite addr b s = .fault .writeOutsideMessage := if_neg (Nat.not_lt.mpr h)

theorem hostBind_available {m : List Byte} {s : State} (h : m.length < 2 ^ 64)
    (hk : ¬ (s.st = .busy ∧ m.length < s.len.toNat)) :
    hostBind m s = .next { s with msg := Memory.ofBytes 0 m, msgExtent := ⟨m.length, h⟩ } := by
  rw [hostBind, dif_pos h, if_neg hk]

theorem hostBind_withdrawn {m : List Byte} {s : State} (h : m.length < 2 ^ 64) (hb : s.st = .busy)
    (hl : m.length < s.len.toNat) : hostBind m s = .refused .messageWithdrawn := by
  rw [hostBind, dif_pos h, if_pos ⟨hb, hl⟩]

theorem hostBind_tooLong {m : List Byte} (s : State) (h : 2 ^ 64 ≤ m.length) :
    hostBind m s = .refused .messageTooLong := dif_neg (Nat.not_lt.mpr h)

/-! ## The step that carries such a move out -/

theorem step_write {s : State} {addr : Nat} {b : Byte} {ms : List Move} (h : s.moves = .write addr b :: ms) :
    step s = hostWrite addr b (s.setMoves ms) := step_move h

theorem step_bind {s : State} {m : List Byte} {ms : List Move} (h : s.moves = .bind m :: ms) :
    step s = hostBind m (s.setMoves ms) := step_move h

/-! ## The statements -/

/-- Settles O43: read after write in a list of cells in canonical form, and at every other index in any list. -/
theorem hostWriteChangesOneMessageByte : Obligations.HostWriteChangesOneMessageByte := by
  intro s addr b ms hm
  rw [step_write hm]
  constructor
  · intro hlt hwf
    exact ⟨_, hostWrite_below b hlt, Memory.read_write_same b hwf,
      fun _ ha => Memory.read_write_other s.msg b ha, rfl⟩
  · exact hostWrite_beyond (s := s.setMoves ms) b

/-- Settles O44: the three branches of `hostBind`, and byte `i` of the bound sequence read back at index `i`. -/
theorem hostBindMakesTheMessageAvailable : Obligations.HostBindMakesTheMessageAvailable := by
  intro s m ms hm
  rw [step_bind hm]
  refine ⟨fun hlt hk => ?_, hostBind_withdrawn (s := s.setMoves ms), hostBind_tooLong _⟩
  have hread : ∀ i (h : i < m.length), Memory.read (Memory.ofBytes 0 m) i = m[i] := fun i h => by
    simpa using Memory.read_ofBytes 0 m i h
  exact ⟨_, hostBind_available hlt hk, rfl, hread, rfl⟩

end Sys2Proof.Machine
end

section
/-! What a step of either agent does when it answers a next state, said once (R15, R174), and from it that every such
step keeps `State.Inv`. -/

namespace Sys2Proof.Machine

/-! ## What a step answers -/

/-- What the engine does while BUSY, one case per control word that decodes (R84, R174). -/
inductive MicroStep (s : State) : State → Prop
  | wait (hu : s.uop = .wait) (hi : s.idx = 0) : MicroStep s s
  | init (hu : s.uop = .init) (hi : s.idx = 0) :
    MicroStep s ((((s.setH IV).setN 0).setNblk (narrowCount (nblkOf s.len.toNat))).seq .padblk 0)
  | padblk (hu : s.uop = .padblk) (hi : s.idx = 0) (hr : s.messageReadable = true) :
    MicroStep s ((s.setBlk (padBlock s.message s.len s.paddedBytes s.n.toNat)).seq .ldw 0)
  | ldw (t : Fin 16) (hu : s.uop = .ldw) (hi : s.idx.toNat = t.val) :
    MicroStep s ((s.setW (t.castLE (by decide)) (blockWord s.blk t)).seqAfterLdw t)
  | expw (t : Fin 64) (hu : s.uop = .expw) (hi : s.idx.toNat = t.val) (h16 : 16 ≤ t.val) :
    MicroStep s ((s.setW t (scheduleWord s.w t)).seqAfterExpw t)
  | ldv (hu : s.uop = .ldv) (hi : s.idx = 0) : MicroStep s ((s.setV s.h).seq .rnd 0)
  | rnd (j : Fin 64) (hu : s.uop = .rnd) (hi : s.idx.toNat = j.val) :
    MicroStep s ((s.setV (roundStep j s.w s.v)).seqAfterRnd j)
  | ffwd (hu : s.uop = .ffwd) (hi : s.idx = 0) : MicroStep s
    (((s.setH (feedForward s.h s.v)).setN (narrowCount (s.n.toNat + 1))).seqAfterFfwd s.n.toNat)

theorem exec_padblk_next {s t : State} (h : exec .padblk s = .next t) : s.messageReadable = true ∧
    t = (s.setBlk (padBlock s.message s.len s.paddedBytes s.n.toNat)).seq .ldw 0 := by
  by_cases hr : s.messageReadable = true
  · rw [exec_padblk_readable hr] at h; cases h; exact ⟨hr, rfl⟩
  · rw [exec_padblk_unreadable hr] at h; cases h

theorem exec_expw_next {k : Fin 64} {s t : State} (h : exec (.expw k) s = .next t) :
    16 ≤ k.val ∧ t = (s.setW k (scheduleWord s.w k)).seqAfterExpw k := by
  by_cases hk : 16 ≤ k.val
  · rw [exec_expw hk] at h; cases h; exact ⟨hk, rfl⟩
  · rw [exec_expw_reserved hk] at h; cases h

/-- The engine rests, or carries out the micro-operation in the sequencer. -/
theorem engineStep_next {s t : State} (h : engineStep s = .next t) :
    (s.st ≠ .busy ∧ t = s) ∨ (s.st = .busy ∧ MicroStep s t) := by
  obtain hrest | ⟨i, hb, hd, he⟩ := engineStep_cases h
  · exact .inl hrest
  refine .inr ⟨hb, ?_⟩
  obtain ⟨hu, hi, rfl⟩ | ⟨hu, hi, rfl⟩ | ⟨hu, hi, rfl⟩ | ⟨hu, k, hi, rfl⟩ | ⟨hu, k, hi, h16, rfl⟩ | ⟨hu, hi, rfl⟩ |
    ⟨hu, j, hi, rfl⟩ | ⟨hu, hi, rfl⟩ := decode_sequencer_ok hd
  · cases he; exact .wait hu hi
  · cases he; exact .init hu hi
  · obtain ⟨hr, rfl⟩ := exec_padblk_next he; exact .padblk hu hi hr
  · cases he; exact .ldw k hu hi
  · obtain ⟨-, rfl⟩ := exec_expw_next he; exact .expw k hu hi h16
  · cases he; exact .ldv hu hi
  · cases he; exact .rnd j hu hi
  · cases he; exact .ffwd hu hi

/-- The state in which a step carries out its move: the move is off the list. -/
def State.popMove (s : State) : State := s.setMoves s.moves.tail

/-- What a step of either agent does when it answers a next state (R15). `rest` is also what `NOP`, a reserved command
word, and a `HASH` while BUSY do. -/
inductive StepNext (s : State) : State → Prop
  | rest : StepNext s s.popMove
  | micro {t : State} (he : s.engineMoves) (hb : s.st = .busy) (hm : MicroStep s.popMove t) : StepNext s t
  | hash (w : BitVec 66) (len : BitVec 64) (hw : s.nextMove = .command w)
    (hd : decode (.command w) = .ok (.hash len)) (hb : s.st ≠ .busy) : StepNext s (acceptHash len s.popMove)
  | reset (hr : s.nextMove = .reset) : StepNext s s.popMove.applyReset
  | write (addr : Nat) (b : Byte) (hw : s.nextMove = .write addr b) (ha : addr < s.msgExtent.val) :
    StepNext s { s.popMove with msg := Memory.write s.msg addr b }
  | bind (m : List Byte) (hm : s.nextMove = .bind m) (hl : m.length < 2 ^ 64)
    (hk : ¬ (s.st = .busy ∧ m.length < s.len.toNat)) :
    StepNext s { s.popMove with msg := Memory.ofBytes 0 m, msgExtent := ⟨m.length, hl⟩ }

theorem step_next {s t : State} (h : step s = .next t) : StepNext s t := by
  rw [step_eq_moveStep] at h
  change moveStep s.nextMove s.popMove = .next t at h
  cases hm : s.nextMove with
  | engine =>
    rw [hm] at h
    obtain ⟨-, rfl⟩ | ⟨hb, hmicro⟩ := engineStep_next h
    · exact .rest
    · exact .micro hm hb hmicro
  | command w =>
    rw [hm] at h
    obtain hc | ⟨len, hd, hb, hc⟩ := commandStep_cases w s.popMove
    · cases hc.symm.trans h; exact .rest
    · cases hc.symm.trans h; exact .hash w len hm hd hb
  | reset => rw [hm] at h; cases h; exact .reset hm
  | write addr b =>
    rw [hm] at h
    by_cases ha : addr < s.msgExtent.val
    · cases (hostWrite_below (s := s.popMove) b ha).symm.trans h; exact .write addr b hm ha
    · cases (hostWrite_beyond (s := s.popMove) b (Nat.le_of_not_lt ha)).symm.trans h
  | bind m =>
    rw [hm] at h
    by_cases hl : m.length < 2 ^ 64
    · by_cases hk : s.st = .busy ∧ m.length < s.len.toNat
      · cases (hostBind_withdrawn (s := s.popMove) hl hk.1 hk.2).symm.trans h
      · cases (hostBind_available (s := s.popMove) hl hk).symm.trans h; exact .bind m hm hl hk
    · cases (hostBind_tooLong s.popMove (Nat.le_of_not_lt hl)).symm.trans h

/-! ## The invariant

The parts of `State.Inv` speak of no data register and not of the moves, so the updates of those keep it by itself. -/

theorem State.Inv.setV {s : State} (hs : s.Inv) (x : Vector Word 8) : (s.setV x).Inv := { hs with }

theorem State.Inv.setW {s : State} (hs : s.Inv) (t : Fin 64) (x : Word) : (s.setW t x).Inv := { hs with }

theorem State.Inv.setBlk {s : State} (hs : s.Inv) (x : Vector Byte 64) : (s.setBlk x).Inv := { hs with }

theorem State.Inv.popMove {s : State} (hs : s.Inv) : s.popMove.Inv := { hs with }

/-- Past `INIT`, a legal successor other than `WAIT` keeps the invariant: the counters are not looked at again. -/
theorem State.Inv.seq {s : State} (hs : s.Inv) (hb : s.st = .busy) (hi : s.uop ≠ .init) {u : Uop} {k : BitVec 6}
    (hu : u ≠ .wait) (hk : (decode (.control (s.seq u k).controlWord)).isOk = true) : (s.seq u k).Inv :=
  { hs with
    waits := by simp [hu, hb]
    legal := hk
    blocks := fun h _ => hs.blocks h hi }

/-- Index 0 is legal for every micro-operation but `EXPW` (R84). -/
theorem State.legal_zero {s : State} (hi : s.idx = 0) (hu : s.uop ≠ .expw) :
    (decode (.control s.controlWord)).isOk = true := by
  rw [State.controlWord, hi]
  cases h : s.uop with
  | expw => exact absurd h hu
  | wait | init | padblk | ldw | ldv | rnd | ffwd => decide

theorem legal_afterLdw (t : Fin 16) : (decode (.control ((if t.val < 15 then Uop.ldw else .expw).code ++
    if t.val < 15 then BitVec.ofNat 6 (t.val + 1) else 16))).isOk = true := by
  revert t; decide

theorem legal_afterExpw (t : Fin 64) (h : 16 ≤ t.val) : (decode (.control
    ((if t.val < 63 then Uop.expw else .ldv).code ++
      if t.val < 63 then BitVec.ofNat 6 (t.val + 1) else 0))).isOk = true := by
  revert t; decide

theorem legal_afterRnd (j : Fin 64) : (decode (.control ((if j.val < 63 then Uop.rnd else .ffwd).code ++
    if j.val < 63 then BitVec.ofNat 6 (j.val + 1) else 0))).isOk = true := by
  revert j; decide

/-- `INIT` sets up the counters: the count of an accepted length fits `NBLK` and is at least 1 (R27, R35). -/
theorem State.Inv.init {s : State} (hs : s.Inv) (hb : s.st = .busy) :
    ((((s.setH IV).setN 0).setNblk (narrowCount (nblkOf s.len.toNat))).seq .padblk 0).Inv := by
  obtain ⟨hlen, -, -⟩ := lengthCheck_ok.mp (hs.domain hb)
  have hcount := narrowCount_toNat (nblkOf_lt hlen)
  exact { hs with
    waits := by simp [hb]
    legal := State.legal_zero rfl (by simp)
    blocks := fun _ _ => ⟨hcount, by simpa [hcount] using nblkOf_pos s.len.toNat⟩
    finished := fun hd => by simp [hb] at hd }

theorem State.seqAfterFfwd_more {s : State} {n : Nat} (h : n + 1 < s.nblk.toNat) :
    s.seqAfterFfwd n = s.seq .padblk 0 := if_pos h

theorem State.seqAfterFfwd_last {s : State} {n : Nat} (h : ¬ n + 1 < s.nblk.toNat) :
    s.seqAfterFfwd n = (s.setSt .done).seq .wait 0 := if_neg h

/-- `FFWD` raises `N` by one, which is at most `NBLK`: below it another block follows, at it the operation is done
(R28, R155). -/
theorem State.Inv.ffwd {s : State} (hs : s.Inv) (hb : s.st = .busy) (hu : s.uop = .ffwd) :
    (((s.setH (feedForward s.h s.v)).setN (narrowCount (s.n.toNat + 1))).seqAfterFfwd s.n.toNat).Inv := by
  obtain ⟨hnblk, hn⟩ := hs.blocks hb (by simp [hu])
  have hsucc : (narrowCount (s.n.toNat + 1)).toNat = s.n.toNat + 1 := narrowCount_toNat (by omega)
  have hnoErr : s.err = .noError := by
    by_contra he; simpa [hb] using hs.cause.mp he
  by_cases hmore : s.n.toNat + 1 < s.nblk.toNat
  · rw [State.seqAfterFfwd_more (by exact hmore)]
    exact { hs with
      waits := by simp [hb]
      legal := State.legal_zero rfl (by simp)
      blocks := fun _ _ => ⟨hnblk, by simpa [hsucc] using hmore⟩
      finished := fun hd => by simp [hb] at hd }
  · rw [State.seqAfterFfwd_last (by exact hmore)]
    exact { hs with
      waits := by simp
      cause := by simp [hnoErr]
      legal := State.legal_zero rfl (by simp)
      domain := fun h => by simp at h
      blocks := fun h => by simp at h
      finished := fun _ => BitVec.eq_of_toNat_eq (by simp [hsucc]; omega) }

/-- Every micro-operation keeps the invariant. -/
theorem MicroStep.inv {s t : State} (hm : MicroStep s t) (hs : s.Inv) (hb : s.st = .busy) : t.Inv := by
  cases hm with
  | wait => exact hs
  | init => exact hs.init hb
  | padblk hu =>
    exact (hs.setBlk (padBlock s.message s.len s.paddedBytes s.n.toNat)).seq (u := .ldw) hb (by simp [hu])
      (by decide) (State.legal_zero rfl (by simp))
  | ldw k hu =>
    rw [State.seqAfterLdw_eq]
    exact (hs.setW _ _).seq hb (by simp [hu]) (by split <;> simp) (legal_afterLdw k)
  | expw k hu _ h16 =>
    rw [State.seqAfterExpw_eq]
    exact (hs.setW _ _).seq hb (by simp [hu]) (by split <;> simp) (legal_afterExpw k h16)
  | ldv hu => exact (hs.setV s.h).seq (u := .rnd) hb (by simp [hu]) (by decide) (State.legal_zero rfl (by simp))
  | rnd j hu =>
    rw [State.seqAfterRnd_eq]
    exact (hs.setV (roundStep j s.w s.v)).seq hb (by simp [hu]) (by split <;> simp) (legal_afterRnd j)
  | ffwd hu => exact hs.ffwd hb hu

/-- An accepted `HASH` starts an operation on a checked length, or is at rest in ERROR with a cause. -/
theorem State.Inv.acceptHash {s : State} (hs : s.Inv) (len : BitVec 64) : (acceptHash len s).Inv := by
  obtain ⟨hc, ha⟩ | ⟨hc, ha⟩ := acceptHash_cases len s
  · rw [ha]
    exact { hs with
      waits := by simp
      cause := by simp
      legal := State.legal_zero rfl (by simp)
      domain := fun _ => hc
      blocks := fun _ h => absurd rfl h
      finished := fun h => by simp at h }
  · rw [ha]
    exact { hs with
      waits := by simp
      cause := by simp [hc]
      legal := State.legal_zero rfl (by simp)
      domain := fun h => by simp at h
      blocks := fun h => by simp at h
      finished := fun h => by simp at h }

/-- `RESET` leaves the engine at rest with no cause (R230). -/
theorem State.Inv.applyReset {s : State} (hs : s.Inv) : s.applyReset.Inv where
  message := hs.message
  waits := by simp [State.applyReset]
  cause := by simp [State.applyReset]
  legal := State.legal_zero rfl (by simp [State.applyReset])
  domain := fun h => by cases h
  blocks := fun h => by cases h
  finished := fun h => by cases h

theorem State.Inv.write {s : State} (hs : s.Inv) {addr : Nat} (b : Byte) (ha : addr < s.msgExtent.val) :
    State.Inv { s with msg := Memory.write s.msg addr b } :=
  { hs with message := Memory.wf_write b ha hs.message }

/-- A message bound while BUSY is no shorter than `LEN`, so `LEN` still passes the check (R236). -/
theorem State.Inv.bind {s : State} (hs : s.Inv) {m : List Byte} (hl : m.length < 2 ^ 64)
    (hk : ¬ (s.st = .busy ∧ m.length < s.len.toNat)) :
    State.Inv { s with msg := Memory.ofBytes 0 m, msgExtent := ⟨m.length, hl⟩ } :=
  { hs with
    message := Memory.wf_ofBytes m
    domain := fun hb => by
      obtain ⟨hlen, -, hcap⟩ := lengthCheck_ok.mp (hs.domain hb)
      exact lengthCheck_ok.mpr ⟨hlen, Nat.le_of_not_lt fun h => hk ⟨hb, h⟩, hcap⟩ }

/-- Settles O54: each case of a step, with the lemma that says it keeps the invariant. -/
theorem everyStepKeepsTheInvariant : Obligations.EveryStepKeepsTheInvariant := by
  intro s t hs h
  cases step_next h with
  | rest => exact hs.popMove
  | micro _ hb hm => exact hm.inv hs.popMove hb
  | hash w len => exact hs.popMove.acceptHash len
  | reset => exact hs.popMove.applyReset
  | write addr b _ ha => exact hs.popMove.write b ha
  | bind m _ hl hk => exact hs.popMove.bind hl hk

/-- Settles O53: each part holds of the literal state, by evaluation. -/
theorem resetStateMeetsTheInvariant : Obligations.ResetStateMeetsTheInvariant where
  message := reset_message_wf
  waits := by decide
  cause := by decide
  legal := by decide
  domain := by decide
  blocks := by decide
  finished := by decide

/-- Settles O42: the engine of the reset state is not BUSY, so its step rests. -/
theorem resetStateIsIdle : Obligations.ResetStateIsIdle :=
  ⟨rfl, rfl, rfl, rfl, rfl, (step_noMoves rfl).trans (engineStep_rest (by decide))⟩

end Sys2Proof.Machine
end

section
/-! The constant tables against the roots of the primes (R23, R24, G2): the first 32 fraction bits of a root of `p` are
the low word of the floor of the root of `p` scaled by 2^96 (cube) or 2^64 (square), which is `Nat.nthRoot`. -/

namespace Sys2Proof.Machine

/-- The primes below `n`, by trial division, as `ConstantTablesAreTheRootsOfThePrimes` spells them. -/
def primesBelow (n : Nat) : List Nat :=
  (List.range n).filter fun p =>
    decide (2 ≤ p) && (List.range p).all fun d => decide (d < 2) || decide (p % d ≠ 0)

/-- The first 64 primes. -/
def firstPrimes : List Nat :=
  [2, 3, 5, 7, 11, 13, 17, 19, 23, 29, 31, 37, 41, 43, 47, 53, 59, 61, 67, 71, 73, 79, 83, 89, 97, 101, 103, 107, 109,
    113, 127, 131, 137, 139, 149, 151, 157, 163, 167, 173, 179, 181, 191, 193, 197, 199, 211, 223, 227, 229, 233, 239,
    241, 251, 257, 263, 269, 271, 277, 281, 283, 293, 307, 311]

/-- The trial division is evaluated by the kernel alone: its recursion is too deep for plain `decide`. -/
theorem primesBelow_312 : primesBelow 312 = firstPrimes := by decide +kernel

theorem roundConstant_eq_cubeRoot (j : Fin 64) :
    K[j].toNat = Nat.nthRoot 3 (firstPrimes[j]! * 2 ^ 96) % 2 ^ 32 := by
  revert j; decide

theorem initialHash_eq_squareRoot (k : Fin 8) :
    IV[k].toNat = Nat.nthRoot 2 (firstPrimes[k]! * 2 ^ 64) % 2 ^ 32 := by
  revert k; decide

/-- Settles O10: the bounds are those of the floor of a root, the words are checked against its value. -/
theorem constantTablesAreTheRootsOfThePrimes : Obligations.ConstantTablesAreTheRootsOfThePrimes := by
  unfold Obligations.ConstantTablesAreTheRootsOfThePrimes
  intro primes
  have hprimes : primes = firstPrimes := primesBelow_312
  rw [hprimes]
  refine ⟨by decide, fun j => ⟨_, ?_, ?_, roundConstant_eq_cubeRoot j⟩,
    fun k => ⟨_, ?_, ?_, initialHash_eq_squareRoot k⟩⟩
  · exact Nat.pow_nthRoot_le_iff.mpr (.inl (by decide))
  · exact Nat.lt_pow_nthRoot_add_one (by decide) _
  · exact Nat.pow_nthRoot_le_iff.mpr (.inl (by decide))
  · exact Nat.lt_pow_nthRoot_add_one (by decide) _

end Sys2Proof.Machine
end

section
/-! What each instruction leaves unchanged (R38), and from it the only writers of each register over a step of either
agent (10_state.md sections 2 and 3). -/

namespace Sys2Proof.Machine

/-! ## Frames of the shared updates -/

theorem acceptHash_frame (len : BitVec 64) (s : State) :
    (acceptHash len s).h = s.h ∧ (acceptHash len s).v = s.v ∧ (acceptHash len s).w = s.w ∧
    (acceptHash len s).blk = s.blk ∧ (acceptHash len s).nblk = s.nblk ∧ (acceptHash len s).n = s.n ∧
    (acceptHash len s).len = len := by
  obtain ⟨-, ha⟩ | ⟨-, ha⟩ := acceptHash_cases len s
  · simp [ha]
  · simp [ha]

theorem acceptHash_st (len : BitVec 64) (s : State) :
    (acceptHash len s).st = .busy ∨ (acceptHash len s).st = .error := by
  obtain ⟨-, ha⟩ | ⟨-, ha⟩ := acceptHash_cases len s
  · simp [ha]
  · simp [ha]

theorem acceptHash_err (len : BitVec 64) (s : State) :
    (acceptHash len s).err = lengthCheck len.toNat s.msgExtent.val s.capBytes.val := by
  obtain ⟨hc, ha⟩ | ⟨-, ha⟩ := acceptHash_cases len s
  · simp [ha, hc]
  · simp [ha]

theorem State.setW_get_ne (s : State) (t : Fin 64) (x : Word) (k : Fin 64) (h : t.val ≠ k.val) :
    (s.setW t x).w[k] = s.w[k] :=
  Vector.getElem_set_ne t.isLt k.isLt h

/-! ## Frames of the instructions -/

/-- Settles O46: the update each micro-operation is, and that `setW` leaves the other words. -/
theorem microOperationsWriteOnlyTheirRegisters : Obligations.MicroOperationsWriteOnlyTheirRegisters := by
  intro i s t hi h
  cases i with
  | nop | hash | wait => simp at hi
  | init => cases h; simp
  | padblk => obtain ⟨-, rfl⟩ := exec_padblk_next h; simp
  | ldw c => cases h; simpa [State.seqAfterLdw_eq] using s.setW_get_ne (c.castLE (by decide)) (blockWord s.blk c)
  | expw c =>
    obtain ⟨-, rfl⟩ := exec_expw_next h
    simpa [State.seqAfterExpw_eq] using
      fun k (hk : c ≠ k) => s.setW_get_ne c (scheduleWord s.w c) k (Fin.val_ne_of_ne hk)
  | ldv => cases h; simp
  | rnd j => cases h; simp [State.seqAfterRnd_eq]
  | ffwd => cases h; simp +contextual [State.seqAfterFfwd_eq]

/-- Settles O47: `NOP` is the identity, as is `HASH` while BUSY; an accepted `HASH` keeps the data registers. -/
theorem hostCommandsWriteOnlyTheirRegisters : Obligations.HostCommandsWriteOnlyTheirRegisters := by
  rintro _ s t (⟨arg, rfl⟩ | ⟨len, rfl⟩) h
  · cases h; simp
  · by_cases hb : s.st = .busy
    · rw [exec_hash_busy len hb] at h; cases h; simp
    · rw [exec_hash_accepted len hb] at h; cases h
      obtain ⟨hh, hv, hw, hblk, hnblk, hn, -⟩ := acceptHash_frame len s
      exact ⟨hh, hv, hw, hblk, hnblk, hn, by simp [hb]⟩

/-! ## Writers among the micro-operations -/

theorem MicroStep.writers {s t : State} (hm : MicroStep s t) : t.len = s.len ∧ t.err = s.err ∧
    (t.h ≠ s.h → s.uop = .init ∨ s.uop = .ffwd) ∧ (t.v ≠ s.v → s.uop = .ldv ∨ s.uop = .rnd) ∧
    (t.blk ≠ s.blk → s.uop = .padblk) ∧ (t.nblk ≠ s.nblk → s.uop = .init) ∧
    (t.n ≠ s.n → s.uop = .init ∨ s.uop = .ffwd) := by
  cases hm with
  | wait hu | init hu | padblk hu | ldv hu => simp [hu]
  | ldw t hu => simp [State.seqAfterLdw_eq]
  | expw t hu => simp [State.seqAfterExpw_eq]
  | rnd j hu => simp [State.seqAfterRnd_eq, hu]
  | ffwd hu => simp [State.seqAfterFfwd_eq, hu]

/-- `W[k]` has one writer: `LDW k` below 16 and `EXPW k` from there on (R22). -/
theorem MicroStep.writer_w {s t : State} (hm : MicroStep s t) (k : Fin 64) (hw : t.w[k] ≠ s.w[k]) :
    s.idx.toNat = k.val ∧ s.uop = if k.val < 16 then .ldw else .expw := by
  cases hm with
  | wait | init | padblk | ldv => simp at hw
  | ldw c hu hi =>
    have hk : c.val = k.val := by
      by_contra hne
      exact hw (by simpa [State.seqAfterLdw_eq] using s.setW_get_ne (c.castLE (by decide)) (blockWord s.blk c) k hne)
    exact ⟨hi.trans hk, by rw [if_pos (by omega), hu]⟩
  | expw c hu hi h16 =>
    have hk : c.val = k.val := by
      by_contra hne
      exact hw (by simpa [State.seqAfterExpw_eq] using s.setW_get_ne c (scheduleWord s.w c) k hne)
    exact ⟨hi.trans hk, by rw [if_neg (by omega), hu]⟩
  | rnd => simp [State.seqAfterRnd_eq] at hw
  | ffwd => simp [State.seqAfterFfwd_eq] at hw

/-- Of the micro-operations the last `FFWD` alone writes `ST` (R29). -/
theorem MicroStep.writer_st {s t : State} (hm : MicroStep s t) (hst : t.st ≠ s.st) :
    s.uop = .ffwd ∧ s.nblk.toNat ≤ s.n.toNat + 1 ∧ t.st = .done := by
  cases hm with
  | wait | init | padblk | ldv => simp at hst
  | ldw => simp [State.seqAfterLdw_eq] at hst
  | expw => simp [State.seqAfterExpw_eq] at hst
  | rnd => simp [State.seqAfterRnd_eq] at hst
  | ffwd hu =>
    by_cases hmore : s.n.toNat + 1 < s.nblk.toNat
    · simp [State.seqAfterFfwd_eq, hmore] at hst
    · exact ⟨hu, by omega, by simp [State.seqAfterFfwd_eq, hmore]⟩

/-! ## Writers over a step of either agent -/

/-- Settles O49: one case of a step for each way the status changes. -/
theorem statusChangesOnlyByHashFfwdAndReset : Obligations.StatusChangesOnlyByHashFfwdAndReset := by
  intro s t h hst
  cases step_next h with
  | rest | write | bind => exact absurd rfl hst
  | micro he hb hm =>
    obtain ⟨hu, hn, hd⟩ := hm.writer_st hst
    exact .inr (.inl ⟨he, hb, hu, hn, hd⟩)
  | hash w len hw hd hb => exact .inl ⟨w, len, hw, hd, hb, acceptHash_st len s.popMove⟩
  | reset hr => exact .inr (.inr ⟨hr, rfl⟩)

/-- Settles O50: a micro-operation keeps `ERR`, an accepted `HASH` writes the outcome of the length check. -/
theorem errorCodeChangesOnlyByHashAndReset : Obligations.ErrorCodeChangesOnlyByHashAndReset := by
  intro s t h herr
  cases step_next h with
  | rest | write | bind => exact absurd rfl herr
  | micro _ _ hm =>
    obtain ⟨-, hkeep, -⟩ := hm.writers
    exact absurd hkeep herr
  | hash w len hw hd hb => exact .inl ⟨w, len, hw, hd, hb, acceptHash_err len s.popMove⟩
  | reset hr => exact .inr ⟨hr, rfl⟩

/-- Settles O51: the writers among the micro-operations, and `LEN` by an accepted `HASH`. -/
theorem everyRegisterHasOnlyItsWriters : Obligations.EveryRegisterHasOnlyItsWriters := by
  intro s t h hnr
  cases step_next h with
  | rest | write | bind => simp [State.popMove]
  | micro he hb hm =>
    obtain ⟨hlen, -, hh, hv, hblk, hnblk, hn⟩ := hm.writers
    exact ⟨fun c => ⟨he, hb, hh c⟩, fun c => ⟨he, hb, hv c⟩, fun k c => ⟨he, hb, hm.writer_w k c⟩,
      fun c => ⟨he, hb, hblk c⟩, fun c => ⟨he, hb, hnblk c⟩, fun c => ⟨he, hb, hn c⟩, fun c => absurd hlen c⟩
  | hash w len hw hd hb =>
    obtain ⟨hh, hv, hws, hblk, hnblk, hn, hlen⟩ := acceptHash_frame len s.popMove
    exact ⟨fun c => absurd hh c, fun c => absurd hv c, fun k c => absurd (by rw [hws]; rfl) c,
      fun c => absurd hblk c, fun c => absurd hnblk c, fun c => absurd hn c, fun _ => ⟨w, len, hw, hd, hb, hlen⟩⟩
  | reset hr => exact absurd hr hnr

end Sys2Proof.Machine
end

section
/-! The message space and the outputs seen from the instructions: what the digest views read while valid, when `PADBLK`
reads a byte that does not exist, which bytes its block depends on, and that no instruction writes the message
(20_memory.md). -/

namespace Sys2Proof.Machine

/-! ## The digest outputs -/

theorem State.digestValid_iff (s : State) : s.digestValid = 1 ↔ s.st = .done := by
  unfold State.digestValid
  split
  · next h => simp [h]
  · next h => simp [h]

theorem State.digestWord_done {s : State} (h : s.st = .done) (r : Nat) (k : Fin 8) : s.digestWord r k = s.h[k] :=
  if_pos h

theorem State.digestByte_done {s : State} (h : s.st = .done) (r : Nat) (i : Fin 32) :
    s.digestByte r i = beByte 4 (s.h[i.val / 4]'(by omega)) (i.val % 4) := if_pos h

theorem beByte_toNat {w : Nat} (k : Nat) (x : BitVec w) (m : Nat) :
    (beByte k x m).toNat = x.toNat / 2 ^ (8 * (k - 1 - m)) % 256 := by
  rw [beByte, BitVec.extractLsb'_toNat, Nat.shiftRight_eq_div_pow]

/-- Settles O12: byte `m` of a word is the word shifted right by 24 - 8 `m` bits, modulo 256. -/
theorem digestOutputsAreTheHashState : Obligations.DigestOutputsAreTheHashState := by
  intro s hv r
  have hd : s.st = .done := s.digestValid_iff.mp hv
  refine ⟨s.digestWord_done hd r, fun i => ?_⟩
  have hshift : 8 * (4 - 1 - i.val % 4) = 24 - 8 * (i.val % 4) := by omega
  rw [State.digestByte_done hd, beByte_toNat, hshift, State.digestWord_done hd]
  rfl

/-! ## The reads of `PADBLK` -/

/-- Settles O18: the two outcomes of `PADBLK`, by whether every byte it reads exists. -/
theorem padblkStopsExactlyOnAMissingMessageByte : Obligations.PadblkStopsExactlyOnAMissingMessageByte := by
  intro s
  constructor
  · rintro ⟨a, ha, hbeyond⟩
    have hr : s.messageReadable ≠ true := fun hall =>
      Nat.not_lt.mpr hbeyond (s.messageReadable_iff.mp hall a ha)
    exact exec_padblk_unreadable hr
  · intro hall
    exact ⟨_, exec_padblk_readable (s.messageReadable_iff.mpr hall)⟩

/-- The block that `PADBLK` loads is the same for every message with the same bytes at the indices it reads. -/
theorem State.padBlock_congr_reads {s : State} {m : Nat → Byte} (h : ∀ a ∈ s.messageReads, m a = s.message a) :
    padBlock m s.len s.paddedBytes s.n.toNat = padBlock s.message s.len s.paddedBytes s.n.toNat :=
  padBlock_congr s.len s.paddedBytes s.n.toNat fun i hi ht hl =>
    h _ ((s.mem_messageReads _).mpr ⟨by omega, by omega, ht, hl⟩)

/-- Settles O19: which bytes `PADBLK` reads does not depend on the message, and the block depends on those alone. -/
theorem padblkSeesOnlyTheBytesItReads : Obligations.PadblkSeesOnlyTheBytesItReads := by
  intro s t m hm h
  obtain ⟨hr, rfl⟩ := exec_padblk_next h
  have hr' : ({ s with msg := m } : State).messageReadable = true := hr
  rw [exec_padblk_readable hr', ← State.padBlock_congr_reads hm]
  rfl

/-! ## What no instruction writes -/

/-- The bytes of the message are those of the list of cells, so the first part follows from the second. -/
theorem State.sameOutside_iff (s t : State) : s.sameOutside t ↔
    t.msg = s.msg ∧ t.msgExtent = s.msgExtent ∧ t.capBytes = s.capBytes ∧ t.draws = s.draws ∧ t.moves = s.moves :=
  ⟨And.right, fun h => ⟨fun a => congrArg (Memory.read · a) h.1, h⟩⟩

theorem acceptHash_sameOutside (len : BitVec 64) (s : State) : s.sameOutside (acceptHash len s) := by
  obtain ⟨-, ha⟩ | ⟨-, ha⟩ := acceptHash_cases len s
  · simp [ha, State.sameOutside_iff]
  · simp [ha, State.sameOutside_iff]

/-- Settles O45: each state an instruction can answer is an update of registers of the engine alone. -/
theorem noInstructionChangesTheMessage : Obligations.NoInstructionChangesTheMessage := by
  intro i s t h
  cases i with
  | nop | wait | init | ldv => cases h; simp [State.sameOutside_iff]
  | hash len =>
    by_cases hb : s.st = .busy
    · rw [exec_hash_busy len hb] at h; cases h; simp [State.sameOutside_iff]
    · rw [exec_hash_accepted len hb] at h; cases h; exact acceptHash_sameOutside len s
  | padblk => obtain ⟨-, rfl⟩ := exec_padblk_next h; simp [State.sameOutside_iff]
  | ldw k => cases h; simp [State.sameOutside_iff, State.seqAfterLdw_eq]
  | expw k => obtain ⟨-, rfl⟩ := exec_expw_next h; simp [State.sameOutside_iff, State.seqAfterExpw_eq]
  | rnd j => cases h; simp [State.sameOutside_iff, State.seqAfterRnd_eq]
  | ffwd => cases h; simp [State.sameOutside_iff, State.seqAfterFfwd_eq]

end Sys2Proof.Machine
end

section
/-! The two maps of 30_encoding.md: decoder and encoder are inverse (R80, R81, R83, R84), the reserved words of R82 and
R85, and what a step does with a word that is presented or placed. -/

namespace Sys2Proof.Machine

/-! ## Decoding an encoded index -/

theorem index_toNat {n : Nat} (h : n < 64) : (BitVec.ofNat 6 n).toNat = n := by
  rw [BitVec.toNat_ofNat, Nat.mod_eq_of_lt h]

theorem decode_ldw (t : Fin 16) : decode (.control (0b011#3 ++ BitVec.ofNat 6 t.val)) = .ok (.ldw t) := by
  have ht : (BitVec.ofNat 6 t.val).toNat = t.val := index_toNat (by omega)
  refine (decode_sequencer .ldw _).trans ?_
  simp only [ht, t.isLt, dif_pos]

theorem decode_expw {t : Fin 64} (h : 16 ≤ t.val) :
    decode (.control (0b100#3 ++ BitVec.ofNat 6 t.val)) = .ok (.expw t) := by
  refine (decode_sequencer .expw _).trans ?_
  simp only [index_toNat t.isLt, if_pos h]

theorem decode_expw_reserved {t : Fin 64} (h : t.val < 16) : decode (.control (0b100#3 ++ BitVec.ofNat 6 t.val)) =
    .error (.reservedControl (0b100#3 ++ BitVec.ofNat 6 t.val)) := by
  refine (decode_sequencer .expw _).trans (if_neg ?_)
  rw [index_toNat t.isLt]
  exact Nat.not_le.mpr h

theorem decode_rnd (j : Fin 64) : decode (.control (0b110#3 ++ BitVec.ofNat 6 j.val)) = .ok (.rnd j) := by
  refine (decode_sequencer .rnd _).trans ?_
  simp only [index_toNat j.isLt]

/-! ## Decoder and encoder -/

/-- Settles O1: one case per row of the maps of R81 and R84. -/
theorem decodingAnEncodedInstructionGivesItBack : Obligations.DecodingAnEncodedInstructionGivesItBack := by
  intro i hwf
  cases i with
  | nop arg => exact decode_nop arg
  | hash len => exact decode_hash len
  | wait | init | padblk | ldv | ffwd => rfl
  | ldw t => exact decode_ldw t
  | expw t => exact decode_expw (of_decide_eq_true hwf)
  | rnd j => exact decode_rnd j

theorem encode_of_decode_command {w : BitVec 66} {i : Instr} (h : decode (.command w) = .ok i) :
    i.wellFormed = true ∧ encode i = .command w := by
  rw [← commandWord_fields w] at h ⊢
  generalize w.extractLsb' 64 2 = op at h ⊢
  generalize w.extractLsb' 0 64 = arg at h ⊢
  rw [decode_command] at h
  by_cases h0 : op = 0
  · rw [if_pos h0] at h; cases h; subst h0; exact ⟨rfl, rfl⟩
  by_cases h1 : op = 1
  · rw [if_neg h0, if_pos h1] at h; cases h; subst h1; exact ⟨rfl, rfl⟩
  · rw [if_neg h0, if_neg h1] at h; cases h

theorem encode_of_decode_sequencer {u : Uop} {k : BitVec 6} {i : Instr} (h : decode (.control (u.code ++ k)) = .ok i) :
    i.wellFormed = true ∧ encode i = .control (u.code ++ k) := by
  have hindex {n : Nat} (hn : k.toNat = n) : BitVec.ofNat 6 n = k := by
    rw [← hn, BitVec.ofNat_toNat, BitVec.setWidth_eq]
  obtain ⟨rfl, rfl, rfl⟩ | ⟨rfl, rfl, rfl⟩ | ⟨rfl, rfl, rfl⟩ | ⟨rfl, t, ht, rfl⟩ | ⟨rfl, t, ht, h16, rfl⟩ |
    ⟨rfl, rfl, rfl⟩ | ⟨rfl, j, hj, rfl⟩ | ⟨rfl, rfl, rfl⟩ := decode_sequencer_ok h
  · exact ⟨rfl, rfl⟩
  · exact ⟨rfl, rfl⟩
  · exact ⟨rfl, rfl⟩
  · exact ⟨rfl, by rw [encode, hindex ht]; rfl⟩
  · exact ⟨decide_eq_true h16, by rw [encode, hindex ht]; rfl⟩
  · exact ⟨rfl, rfl⟩
  · exact ⟨rfl, by rw [encode, hindex hj]; rfl⟩
  · exact ⟨rfl, rfl⟩

/-- Every control word is that of some (`UOP`, `IDX`) (R83). -/
theorem controlWord_eq_sequencer (w : BitVec 9) : (Uop.ofCode (w.extractLsb' 6 3)).code ++ w.extractLsb' 0 6 = w := by
  rw [Uop.code_ofCode, controlWord_fields]

/-- Settles O2: each of the two formats is taken apart into its fields, and the fields are those of the encoder. -/
theorem aDecodedWordIsTheEncodingOfItsInstruction : Obligations.ADecodedWordIsTheEncodingOfItsInstruction := by
  intro c i h
  cases c with
  | command w => exact encode_of_decode_command h
  | control w =>
    rw [← controlWord_eq_sequencer w] at h ⊢
    exact encode_of_decode_sequencer h

/-- Settles O4: the ten words, decoded by evaluation. -/
theorem sampleWordsOfEveryFamilyDecode : Obligations.SampleWordsOfEveryFamilyDecode :=
  ⟨rfl, rfl, rfl, rfl, rfl, rfl, rfl, rfl, rfl, rfl⟩

/-- Settles O11: the codes are those of the definitions, and `DIGEST_VALID` shows DONE. -/
theorem statusAndErrorCodes : Obligations.StatusAndErrorCodes :=
  ⟨rfl, rfl, rfl, rfl, rfl, rfl, rfl, rfl, rfl, rfl, rfl, rfl, fun s => ⟨rfl, rfl, s.digestValid_iff⟩⟩

/-! ## Reserved control words -/

/-- Settles O22: the word is reserved (R85), and the instruction stops at the same bound. -/
theorem expwBelowSixteenIsRefused : Obligations.ExpwBelowSixteenIsRefused := by
  intro t s ht
  refine ⟨fun i hi => ?_, exec_expw_reserved (Nat.not_le.mpr ht)⟩
  cases (decode_expw_reserved ht).symm.trans hi

/-- The control words that the decoder refuses, by `UOP` and `IDX` (R85). -/
theorem decode_sequencer_reserved (u : Uop) (k : BitVec 6) :
    decode (.control (u.code ++ k)) = .error (.reservedControl (u.code ++ k)) ↔
      ((u.code ∈ [0b000#3, 0b001#3, 0b010#3, 0b101#3, 0b111#3] ∧ k ≠ 0) ∨
        (u.code = 0b011#3 ∧ 16 ≤ k.toNat) ∨ (u.code = 0b100#3 ∧ k.toNat < 16)) := by
  rw [decode_sequencer]
  cases u <;> simp [Uop.code]

theorem engineStep_reserved {s : State} (hb : s.st = .busy) (hr : legalControl s.controlWord = false) :
    engineStep s = .refused .reservedControlWord := by
  rw [engineStep, State.fetchControl_busy hb]
  unfold legalControl at hr
  cases hd : decode (.control s.controlWord) with
  | ok i => rw [hd] at hr; cases hr
  | error r => rfl

theorem legalControl_count : ((List.range 512).filter fun k => legalControl (BitVec.ofNat 9 k)).length = 133 := by
  decide +kernel

theorem reservedControl_count : ((List.range 512).filter fun k => !legalControl (BitVec.ofNat 9 k)).length = 379 := by
  have hsum := List.length_eq_length_filter_add (l := List.range 512) fun k => legalControl (BitVec.ofNat 9 k)
  rw [List.length_range, legalControl_count] at hsum
  omega

theorem acceptHash_legal (len : BitVec 64) (s : State) : legalControl (acceptHash len s).controlWord = true := by
  obtain ⟨-, ha⟩ | ⟨-, ha⟩ := acceptHash_cases len s
  · rw [ha]; exact State.legal_zero rfl (by simp)
  · rw [ha]; exact State.legal_zero rfl (by simp)

theorem exec_next_legal {i : Instr} {s t : State} (hs : legalControl s.controlWord = true) (h : exec i s = .next t) :
    legalControl t.controlWord = true := by
  cases i with
  | nop | wait => cases h; exact hs
  | hash len =>
    by_cases hb : s.st = .busy
    · rw [exec_hash_busy len hb] at h; cases h; exact hs
    · rw [exec_hash_accepted len hb] at h; cases h; exact acceptHash_legal len s
  | init | ldv => cases h; exact State.legal_zero rfl (by simp)
  | padblk => obtain ⟨-, rfl⟩ := exec_padblk_next h; exact State.legal_zero rfl (by simp)
  | ldw k => cases h; rw [State.seqAfterLdw_eq]; exact legal_afterLdw k
  | expw k => obtain ⟨h16, rfl⟩ := exec_expw_next h; rw [State.seqAfterExpw_eq]; exact legal_afterExpw k h16
  | rnd j => cases h; rw [State.seqAfterRnd_eq]; exact legal_afterRnd j
  | ffwd => cases h; rw [State.seqAfterFfwd_eq]; exact State.legal_zero rfl (by rw [State.seq_uop]; split <;> simp)

/-- Settles O3: the refused words by `UOP` and `IDX`, the counts by evaluation, and the successor of each instruction. -/
theorem reservedControlWordsAreRefusedAndNeverProduced :
    Obligations.ReservedControlWordsAreRefusedAndNeverProduced := by
  refine ⟨fun w => ?_, legalControl_count, reservedControl_count, fun _ => engineStep_reserved,
    fun _ _ _ => exec_next_legal⟩
  have h := decode_sequencer_reserved (Uop.ofCode (w.extractLsb' 6 3)) (w.extractLsb' 0 6)
  rwa [controlWord_eq_sequencer, Uop.code_ofCode] at h

/-! ## Presenting a command word -/

theorem step_command {s : State} {w : BitVec 66} {ms : List Move} (h : s.moves = .command w :: ms) :
    step s = commandStep w (s.setMoves ms) := step_move h

/-- Settles O38: presenting a word that decodes runs the command it decodes to. -/
theorem commandMoveRunsTheDecodedCommand : Obligations.CommandMoveRunsTheDecodedCommand := by
  intro s w i ms hm hd
  rw [step_command hm, commandStep_decoded hd]
  rfl

theorem decode_command_reserved {w : BitVec 66} (h : 2 ≤ (w.extractLsb' 64 2).toNat) :
    decode (.command w) = .error (.reservedCommand w) := by
  have h0 : w.extractLsb' 64 2 ≠ 0 := fun he => by rw [he] at h; exact absurd h (by decide)
  have h1 : w.extractLsb' 64 2 ≠ 1 := fun he => by rw [he] at h; exact absurd h (by decide)
  have hd := decode_command (w.extractLsb' 64 2) (w.extractLsb' 0 64)
  rwa [if_neg h0, if_neg h1, commandWord_fields] at hd

theorem commandStep_reserved {w : BitVec 66} (s : State) (h : 2 ≤ (w.extractLsb' 64 2).toNat) :
    commandStep w s = .next s := by
  rw [commandStep, decode_command_reserved h]
  rfl

/-- Settles O5: a reserved word and a `NOP` both leave the state in which the move is off the list. -/
theorem reservedCommandWordsAreIgnored : Obligations.ReservedCommandWordsAreIgnored := by
  intro w s ms hop hm
  have hstep : step s = .next (s.setMoves ms) := by rw [step_command hm, commandStep_reserved _ hop]
  refine ⟨decode_command_reserved hop, hstep, fun arg => ?_⟩
  rw [hstep, step_command rfl, commandStep_decoded (decode_nop arg)]
  rfl

/-! ## Placing a word of the opcode table -/

/-- The state in which a placed control word runs: it is in (`UOP`, `IDX`), and the engine is BUSY but for `WAIT`. -/
def State.loadControl (s : State) (w : BitVec 9) : State :=
  { s with uop := Uop.ofCode (w.extractLsb' 6 3), idx := w.extractLsb' 0 6, st := if w = 0 then s.st else .busy }

theorem State.loadControl_controlWord (s : State) (w : BitVec 9) : (s.loadControl w).controlWord = w :=
  controlWord_eq_sequencer w

theorem State.placeControl_noMoves {s : State} (h : s.moves = []) (w : BitVec 9) :
    s.placeControl w = s.loadControl w := by
  simp only [State.placeControl, h]
  unfold State.loadControl
  split <;> rfl

theorem State.placeControl_moves {s : State} {m : Move} {ms : List Move} (h : s.moves = m :: ms) (w : BitVec 9) :
    s.placeControl w = (s.loadControl w).setMoves (.engine :: m :: ms) := by
  simp only [State.placeControl, h]
  unfold State.loadControl
  split <;> rfl

/-- The step after a control word is placed is the engine's, whatever moves are listed. -/
theorem step_placeControl (s : State) (w : BitVec 9) : step (s.placeControl w) = engineStep (s.loadControl w) := by
  cases h : s.moves with
  | nil => rw [State.placeControl_noMoves h, step_noMoves (s := s.loadControl w) h]
  | cons m ms =>
    have hkept : (s.loadControl w).setMoves (m :: ms) = s.loadControl w := by rw [← h]; rfl
    rw [State.placeControl_moves h, step_move rfl]
    exact congrArg engineStep hkept

/-- The engine runs the loaded word; `WAIT` runs at rest too, where it changes nothing (R179). -/
theorem engineStep_loadControl {w : BitVec 9} {i : Instr} (s : State) (hd : decode (.control w) = .ok i) :
    engineStep (s.loadControl w) = exec i (s.loadControl w) := by
  by_cases hb : (s.loadControl w).st = .busy
  · exact engineStep_decoded hb (by rwa [State.loadControl_controlWord])
  · have hw : w = 0 := by
      by_contra hne
      exact hb (if_neg hne)
    subst hw
    cases hd
    rw [engineStep_rest hb, exec_wait]

theorem tableCodeWord_control (w : BitVec 9) : tableCodeWord 16 w.toNat = some (.control w) := by
  rw [tableCodeWord, if_pos (by decide), if_pos w.isLt, BitVec.ofNat_toNat, BitVec.setWidth_eq]

theorem tableCodeWord_command (w : BitVec 66) : tableCodeWord 72 w.toNat = some (.command w) := by
  rw [tableCodeWord, if_neg (by decide), if_pos w.isLt, BitVec.ofNat_toNat, BitVec.setWidth_eq]

theorem decodeTableWord_ok {nbits w : Nat} {c : CodeWord} {i : Instr} (hc : tableCodeWord nbits w = some c)
    (hd : decode c = .ok i) : decodeTableWord nbits w = some i := by
  simp only [decodeTableWord, hc, hd]

theorem State.withFetchWord_control (s : State) (w : BitVec 9) :
    s.withFetchWord 16 w.toNat = s.placeControl w := by
  rw [State.withFetchWord, State.placeTableWord, if_pos (by decide), BitVec.ofNat_toNat, BitVec.setWidth_eq]

theorem State.withFetchWord_command (s : State) (w : BitVec 66) :
    s.withFetchWord 72 w.toNat = s.placeCommand w := by
  rw [State.withFetchWord, State.placeTableWord, if_neg (by decide), BitVec.ofNat_toNat, BitVec.setWidth_eq]

theorem step_placeCommand {w : BitVec 66} {i : Instr} (s : State) (hd : decode (.command w) = .ok i) :
    step (s.placeCommand w) = exec i s := by
  rw [step_command (s := s.placeCommand w) rfl, commandStep_decoded hd]
  rfl

/-- Settles O39: by O1 the word of an instruction decodes to it, and a placed word runs as what it decodes to. -/
theorem placedTableWordIsTheInstructionThatRuns : Obligations.PlacedTableWordIsTheInstructionThatRuns := by
  intro i s hwf
  have hd := decodingAnEncodedInstructionGivesItBack i hwf
  cases hc : encode i with
  | control w =>
    rw [hc] at hd
    refine ⟨decodeTableWord_ok (tableCodeWord_control w) hd, ?_⟩
    rw [State.withFetchWord_control, step_placeControl, engineStep_loadControl s hd]
    rfl
  | command w =>
    rw [hc] at hd
    refine ⟨decodeTableWord_ok (tableCodeWord_command w) hd, ?_⟩
    rw [State.withFetchWord_command, step_placeCommand s hd]

end Sys2Proof.Machine
end

section
/-! The word primitives of 40_primitives.md (R101 to R111), each with the bits and the number it stands for, and the
four statements about them. -/

namespace Sys2Proof.Machine

/-! ## Rotation and shift, bit by bit and as numbers -/

theorem getLsbD_rotr (x : Word) {n i : Nat} (hn : n < 32) (hi : i < 32) :
    (rotr x n).getLsbD i = x.getLsbD ((i + n) % 32) := by
  rw [rotr, BitVec.getLsbD_rotateRight, Nat.mod_eq_of_lt hn]
  by_cases h : i < 32 - n
  · have hkeep : n + i = (i + n) % 32 := by omega
    simp [h, hkeep]
  · have hwrap : i - (32 - n) = (i + n) % 32 := by omega
    simp [h, hi, hwrap]

theorem getLsbD_shr (x : Word) (n i : Nat) : (shr x n).getLsbD i = x.getLsbD (i + n) := by
  rw [shr, BitVec.getLsbD_ushiftRight, Nat.add_comm]

theorem toNat_shr (x : Word) (n : Nat) : (shr x n).toNat = x.toNat / 2 ^ n := by
  rw [shr, BitVec.toNat_ushiftRight, Nat.shiftRight_eq_div_pow]

/-- R101's second form: the low `n` bits of `x` stand above its high `32 - n` bits. -/
theorem toNat_rotr (x : Word) {n : Nat} (hn : n < 32) :
    (rotr x n).toNat = x.toNat % 2 ^ n * 2 ^ (32 - n) + x.toNat / 2 ^ n := by
  have hpow : 2 ^ 32 = 2 ^ n * 2 ^ (32 - n) := by rw [← pow_add, Nat.add_sub_cancel' hn.le]
  have hlow : x.toNat / 2 ^ n < 2 ^ (32 - n) := Nat.div_lt_of_lt_mul (hpow ▸ x.isLt)
  have hhigh : x.toNat <<< (32 - n) % 2 ^ 32 = (x.toNat % 2 ^ n) <<< (32 - n) := by
    rw [Nat.shiftLeft_eq, Nat.shiftLeft_eq, hpow, Nat.mul_mod_mul_right]
  rw [rotr, BitVec.toNat_rotateRight, Nat.mod_eq_of_lt hn, hhigh, Nat.or_comm, Nat.shiftRight_eq_div_pow,
    ← Nat.shiftLeft_add_eq_or_of_lt hlow, Nat.shiftLeft_eq]

theorem getLsbD_zeros (i : Nat) : (0 : Word).getLsbD i = false := BitVec.getLsbD_zero

theorem getLsbD_ones {i : Nat} (hi : i < 32) : (0xffffffff : Word).getLsbD i = true := by
  rw [show (0xffffffff : Word) = BitVec.allOnes 32 from rfl, BitVec.getLsbD_allOnes, decide_eq_true hi]

theorem rotr_zero {n : Nat} (hn : n < 32) : rotr 0 n = 0 :=
  BitVec.eq_of_getLsbD_eq fun i hi => by rw [getLsbD_rotr 0 hn hi, getLsbD_zeros, getLsbD_zeros]

theorem rotr_ones {n : Nat} (hn : n < 32) : rotr 0xffffffff n = 0xffffffff :=
  BitVec.eq_of_getLsbD_eq fun i hi => by
    rw [getLsbD_rotr _ hn hi, getLsbD_ones hi, getLsbD_ones (Nat.mod_lt _ (by decide))]

/-- Settles O6: the number of a rotation is its two parts side by side; its bits wrap at 32 - `n`. -/
theorem rotateAndShiftMoveTheBits : Obligations.RotateAndShiftMoveTheBits := by
  refine ⟨fun x n _ hn => ⟨fun i hi => getLsbD_rotr x hn hi, toNat_rotr x hn, fun i _ => ?_, toNat_shr x n⟩,
    fun n _ hn => ⟨rotr_zero hn, rotr_ones hn⟩, by decide⟩
  rw [getLsbD_shr]
  split
  · rfl
  · next h => exact BitVec.getLsbD_of_ge x _ (by omega)

/-! ## The sigma functions: two shapes, whatever the amounts -/

theorem getLsbD_rotr_rotr_shr (x : Word) {a b i : Nat} (c : Nat) (ha : a < 32) (hb : b < 32) (hi : i < 32) :
    (rotr x a ^^^ rotr x b ^^^ shr x c).getLsbD i =
      ((x.getLsbD ((i + a) % 32) ^^ x.getLsbD ((i + b) % 32)) ^^ (decide (i + c < 32) && x.getLsbD (i + c))) := by
  have hshift : (shr x c).getLsbD i = (decide (i + c < 32) && x.getLsbD (i + c)) := by
    by_cases h : i + c < 32
    · rw [getLsbD_shr, decide_eq_true h, Bool.true_and]
    · rw [getLsbD_shr, decide_eq_false h, Bool.false_and, BitVec.getLsbD_of_ge x _ (Nat.not_lt.mp h)]
  rw [BitVec.getLsbD_xor, BitVec.getLsbD_xor, getLsbD_rotr x ha hi, getLsbD_rotr x hb hi, hshift]

theorem getLsbD_rotr_rotr_rotr (x : Word) {a b c i : Nat} (ha : a < 32) (hb : b < 32) (hc : c < 32) (hi : i < 32) :
    (rotr x a ^^^ rotr x b ^^^ rotr x c).getLsbD i =
      ((x.getLsbD ((i + a) % 32) ^^ x.getLsbD ((i + b) % 32)) ^^ x.getLsbD ((i + c) % 32)) := by
  rw [BitVec.getLsbD_xor, BitVec.getLsbD_xor, getLsbD_rotr x ha hi, getLsbD_rotr x hb hi, getLsbD_rotr x hc hi]

/-- Settles O7: each sigma is one of the two shapes at the amounts of its rule. -/
theorem sigmaFunctionsMixTheBits : Obligations.SigmaFunctionsMixTheBits :=
  ⟨fun x _ hi =>
    ⟨getLsbD_rotr_rotr_shr x 3 (by decide) (by decide) hi, getLsbD_rotr_rotr_shr x 10 (by decide) (by decide) hi,
      getLsbD_rotr_rotr_rotr x (by decide) (by decide) (by decide) hi,
      getLsbD_rotr_rotr_rotr x (by decide) (by decide) (by decide) hi⟩, by decide⟩

/-! ## Choose and majority -/

theorem getLsbD_ch (x y z : Word) {i : Nat} (hi : i < 32) :
    (ch x y z).getLsbD i = if x.getLsbD i then y.getLsbD i else z.getLsbD i := by
  rw [ch, BitVec.getLsbD_xor, BitVec.getLsbD_and, BitVec.getLsbD_and, BitVec.getLsbD_not, decide_eq_true hi]
  cases x.getLsbD i <;> simp

theorem getLsbD_maj (x y z : Word) (i : Nat) :
    (maj x y z).getLsbD i = decide (2 ≤ (x.getLsbD i).toNat + (y.getLsbD i).toNat + (z.getLsbD i).toNat) := by
  rw [maj, BitVec.getLsbD_xor, BitVec.getLsbD_xor, BitVec.getLsbD_and, BitVec.getLsbD_and, BitVec.getLsbD_and]
  generalize x.getLsbD i = a, y.getLsbD i = b, z.getLsbD i = c
  revert a b c
  decide

/-- R108's second form: the two operands of the XOR have no 1 in common. -/
theorem ch_eq_or (x y z : Word) : ch x y z = (x &&& y) ||| (~~~x &&& z) :=
  BitVec.eq_of_getLsbD_eq fun i hi => by
    rw [getLsbD_ch x y z hi, BitVec.getLsbD_or, BitVec.getLsbD_and, BitVec.getLsbD_and, BitVec.getLsbD_not,
      decide_eq_true hi]
    cases x.getLsbD i <;> simp

theorem ch_ones (y z : Word) : ch 0xffffffff y z = y :=
  BitVec.eq_of_getLsbD_eq fun i hi => by rw [getLsbD_ch _ y z hi, getLsbD_ones hi, if_pos rfl]

theorem ch_zero (y z : Word) : ch 0 y z = z :=
  BitVec.eq_of_getLsbD_eq fun i hi => by rw [getLsbD_ch _ y z hi, getLsbD_zeros, if_neg Bool.false_ne_true]

theorem ch_same (x y : Word) : ch x y y = y :=
  BitVec.eq_of_getLsbD_eq fun i hi => by rw [getLsbD_ch x y y hi, ite_self]

theorem maj_swap_left (x y z : Word) : maj x y z = maj y x z :=
  BitVec.eq_of_getLsbD_eq fun i _ => by rw [getLsbD_maj, getLsbD_maj, Nat.add_comm (x.getLsbD i).toNat]

theorem maj_swap_right (x y z : Word) : maj x y z = maj x z y :=
  BitVec.eq_of_getLsbD_eq fun i _ => by rw [getLsbD_maj, getLsbD_maj, Nat.add_right_comm]

theorem maj_same (x z : Word) : maj x x z = x :=
  BitVec.eq_of_getLsbD_eq fun i _ => by
    rw [getLsbD_maj]
    generalize x.getLsbD i = a, z.getLsbD i = c
    revert a c
    decide

theorem maj_zero (y z : Word) : maj 0 y z = y &&& z :=
  BitVec.eq_of_getLsbD_eq fun i _ => by
    rw [getLsbD_maj, getLsbD_zeros, BitVec.getLsbD_and]
    generalize y.getLsbD i = b, z.getLsbD i = c
    revert b c
    decide

theorem maj_ones (y z : Word) : maj 0xffffffff y z = y ||| z :=
  BitVec.eq_of_getLsbD_eq fun i hi => by
    rw [getLsbD_maj, getLsbD_ones hi, BitVec.getLsbD_or]
    generalize y.getLsbD i = b, z.getLsbD i = c
    revert b c
    decide

/-- Settles O8: the truth tables of `ch` and `maj`; every law holds bit by bit by them. -/
theorem chooseAndMajorityBitByBit : Obligations.ChooseAndMajorityBitByBit :=
  ⟨fun x y z i hi => ⟨getLsbD_ch x y z hi, getLsbD_maj x y z i⟩,
    fun x y z => ⟨ch_eq_or x y z, ch_ones y z, ch_zero y z, ch_same x y, maj_swap_left x y z, maj_swap_right x y z,
      maj_same x z, maj_zero y z, maj_ones y z⟩, by decide⟩

/-! ## The big-endian conversions -/

theorem be32bytes_get (x : Word) {m : Nat} (hm : m < 4) : (be32bytes x)[m] = beByte 4 x m := by
  rw [be32bytes, Vector.getElem_ofFn]

theorem be64bytes_get (x : BitVec 64) {m : Nat} (hm : m < 8) : (be64bytes x)[m] = beByte 8 x m := by
  rw [be64bytes, Vector.getElem_ofFn]

theorem append_byte_toNat {w : Nat} (x : BitVec w) (b : Byte) : (x ++ b).toNat = x.toNat * 2 ^ 8 + b.toNat := by
  rw [BitVec.toNat_append, ← Nat.shiftLeft_add_eq_or_of_lt b.isLt, Nat.shiftLeft_eq]

theorem be32_toNat (b0 b1 b2 b3 : Byte) :
    (be32 b0 b1 b2 b3).toNat = b0.toNat * 2 ^ 24 + b1.toNat * 2 ^ 16 + b2.toNat * 2 ^ 8 + b3.toNat := by
  rw [be32, append_byte_toNat, append_byte_toNat, append_byte_toNat]
  omega

theorem be32_be32bytes (x : Word) :
    be32 (be32bytes x)[0] (be32bytes x)[1] (be32bytes x)[2] (be32bytes x)[3] = x := by
  apply BitVec.eq_of_toNat_eq
  have hx := x.isLt
  simp only [be32_toNat, be32bytes_get, beByte_toNat]
  omega

theorem be32bytes_be32 (b0 b1 b2 b3 : Byte) : be32bytes (be32 b0 b1 b2 b3) = #v[b0, b1, b2, b3] := by
  have h0 := b0.isLt
  have h1 := b1.isLt
  have h2 := b2.isLt
  have h3 := b3.isLt
  refine Vector.ext fun m hm => BitVec.eq_of_toNat_eq ?_
  rw [be32bytes_get _ hm, beByte_toNat, be32_toNat]
  match m with
  | 0 => change _ / 2 ^ 24 % 256 = b0.toNat; omega
  | 1 => change _ / 2 ^ 16 % 256 = b1.toNat; omega
  | 2 => change _ / 2 ^ 8 % 256 = b2.toNat; omega
  | 3 => change _ / 2 ^ 0 % 256 = b3.toNat; omega

/-- Settles O9: both conversions are sums of bytes at their weights, and inverse as such. -/
theorem bigEndianConversionsAreInverse : Obligations.BigEndianConversionsAreInverse := by
  refine ⟨fun b0 b1 b2 b3 => ⟨be32_toNat b0 b1 b2 b3, be32bytes_be32 b0 b1 b2 b3⟩, be32_be32bytes, fun x m => ?_,
    fun x m => ?_, by decide⟩
  · exact (congrArg BitVec.toNat (be32bytes_get x m.isLt)).trans (beByte_toNat 4 x m)
  · exact (congrArg BitVec.toNat (be64bytes_get x m.isLt)).trans (beByte_toNat 8 x m)

end Sys2Proof.Machine
end

section
/-! The padder of 41_padder.md: the block count (R121), the bytes of the padded buffer one case at a time (R122), and
what follows from them for its blocks (R124, R125), for the buffer as a whole (R127) and for `PADBLK` (R126). -/

namespace Sys2Proof.Machine

/-! ## The block count -/

theorem nblkOf_fits (len : Nat) : len + 9 ≤ 64 * nblkOf len := by unfold nblkOf; omega

theorem nblkOf_least {len k : Nat} (h : len + 9 ≤ 64 * k) : nblkOf len ≤ k := by unfold nblkOf; omega

/-- One block fewer does not hold the message and nine more bytes. -/
theorem nblkOf_tight (len : Nat) : 64 * nblkOf len < len + 9 + 64 := by unfold nblkOf; omega

theorem nblkOf_lowTier {len : Nat} (h : len % 64 ≤ 55) : nblkOf len = len / 64 + 1 := by unfold nblkOf; omega

theorem nblkOf_highTier {len : Nat} (h : 56 ≤ len % 64) : nblkOf len = len / 64 + 2 := by unfold nblkOf; omega

/-- Settles O13: the count holds the message and nine bytes, no smaller one does, and the remainder decides it. -/
theorem blockCountIsTheSmallestThatFits : Obligations.BlockCountIsTheSmallestThatFits :=
  ⟨fun len => ⟨nblkOf_fits len, fun _ => nblkOf_least, nblkOf_pos len, nblkOf_lowTier, nblkOf_highTier⟩, by decide⟩

/-! ## The four cases of a byte of the padded buffer -/

theorem bitLength_domain {len : BitVec 64} (h : len.toNat < 2 ^ 61) :
    bitLength len = BitVec.ofNat 64 (len.toNat * 8) := if_pos (by omega)

section
variable (msg : Nat → Byte) {len : BitVec 64} {total i : Nat}

theorem padByte_message (ht : i < total) (hi : i < len.toNat) : padByte msg len total i = msg i := by
  rw [padByte, if_neg (Nat.not_le.mpr ht), if_pos hi]

theorem padByte_marker (ht : i < total) (hi : i = len.toNat) : padByte msg len total i = 0x80 := by
  rw [padByte, if_neg (Nat.not_le.mpr ht), if_neg hi.not_lt, if_pos hi]

theorem padByte_zero (hi : len.toNat < i) (ht : i < total - 8) : padByte msg len total i = 0x00 := by
  rw [padByte, if_neg (by omega), if_neg hi.not_gt, if_neg hi.ne', if_pos ht]

/-- The last eight bytes, past the marker, are those of the bit length, most significant first. -/
theorem padByte_length (hlen : len.toNat < 2 ^ 61) (hi : len.toNat < i) (ht : i < total) (h8 : total - 8 ≤ i) :
    padByte msg len total i = (BitVec.ofNat 64 (len.toNat * 8)).extractLsb' (8 * (total - 1 - i)) 8 := by
  rw [padByte, if_neg (Nat.not_le.mpr ht), if_neg hi.not_gt, if_neg hi.ne', if_neg (Nat.not_lt.mpr h8),
    bitLength_domain hlen]

theorem padByte_length_toNat (hlen : len.toNat < 2 ^ 61) (hi : len.toNat < i) (ht : i < total) (h8 : total - 8 ≤ i) :
    (padByte msg len total i).toNat = len.toNat * 8 / 2 ^ (8 * (total - 1 - i)) % 256 := by
  have hbits : (BitVec.ofNat 64 (len.toNat * 8)).toNat = len.toNat * 8 := by
    rw [BitVec.toNat_ofNat, Nat.mod_eq_of_lt (by omega)]
  rw [padByte_length msg hlen hi ht h8, BitVec.extractLsb'_toNat, Nat.shiftRight_eq_div_pow, hbits]

end

/-- Settles O14: the four cases, apart because the size is at least `LEN` + 9. -/
theorem paddedBufferByteByByte : Obligations.PaddedBufferByteByByte := by
  intro msg len i hlen hi
  have hfits := nblkOf_fits len.toNat
  refine ⟨hfits, nblkOf_tight len.toNat, fun hr => ?_, fun hr => ?_, padByte_message msg hi, padByte_marker msg hi,
    padByte_zero msg, fun h8 => padByte_length_toNat msg hlen (by omega) hi h8⟩
  · rw [nblkOf_lowTier (by omega)]; omega
  · rw [nblkOf_highTier (by omega)]; omega

/-! ## The blocks -/

theorem padOf_get (msg : Nat → Byte) (len : BitVec 64) (n : Nat) (i : Fin 64) :
    (padOf msg len n)[i] = padByte msg len (64 * nblkOf len.toNat) (64 * n + i.val) :=
  padBlock_get msg len _ n i.val i.isLt

/-- The length byte at place `i` of the last block, for any place past the message. -/
theorem padByte_lastBlock (msg : Nat → Byte) {len : BitVec 64} (hlen : len.toNat < 2 ^ 61) {n i : Nat}
    (hi : len.toNat < 64 * n + i) (h56 : 56 ≤ i) (h64 : i < 64) : padByte msg len (64 * (n + 1)) (64 * n + i) =
      (BitVec.ofNat 64 (len.toNat * 8)).extractLsb' (8 * (63 - i)) 8 := by
  have hplace : 64 * (n + 1) - 1 - (64 * n + i) = 63 - i := by omega
  rw [padByte_length msg hlen hi (by omega) (by omega), hplace]

/-- Settles O15: each byte of block q, and of block q + 1 where there is one, by the case of R122 it falls under. -/
theorem twoTierPaddingDecision : Obligations.TwoTierPaddingDecision := by
  intro msg len hlen q r lengthByte
  have hqr : len.toNat = 64 * q + r := (Nat.div_add_mod len.toNat 64).symm
  refine ⟨fun hr => ⟨nblkOf_lowTier hr, fun i => ?_⟩, fun hr => ⟨nblkOf_highTier hr, fun i => ?_, fun i => ?_⟩⟩
  · rw [padOf_get, nblkOf_lowTier hr]
    split
    · exact padByte_message msg (by omega) (by omega)
    split
    · exact padByte_marker msg (by omega) (by omega)
    split
    · exact padByte_zero msg (by omega) (by omega)
    · exact padByte_lastBlock msg hlen (by omega) (by omega) i.isLt
  · rw [padOf_get, nblkOf_highTier hr]
    split
    · exact padByte_message msg (by omega) (by omega)
    split
    · exact padByte_marker msg (by omega) (by omega)
    · exact padByte_zero msg (by omega) (by omega)
  · rw [padOf_get, nblkOf_highTier hr]
    split
    · exact padByte_zero msg (by omega) (by omega)
    · exact padByte_lastBlock msg hlen (by omega) (by omega) i.isLt

/-! ## The buffer as a whole -/

/-- A byte of the length field by its distance `k` from the end. -/
theorem padByte_fromEnd_toNat (msg : Nat → Byte) {len : BitVec 64} (hlen : len.toNat < 2 ^ 61) {k : Nat} (hk : k < 8) :
    (padByte msg len (64 * nblkOf len.toNat) (64 * nblkOf len.toNat - (k + 1))).toNat =
      len.toNat * 8 / 2 ^ (8 * k) % 256 := by
  have hfits := nblkOf_fits len.toNat
  have hplace : 64 * nblkOf len.toNat - 1 - (64 * nblkOf len.toNat - (k + 1)) = k := by omega
  rw [padByte_length_toNat msg hlen (by omega) (by omega) (by omega), hplace]

/-- Settles O16: the size is that of R121; the eight bytes from the end carry the bit length at their weights. -/
theorem paddedBufferHoldsMessageMarkerAndBitLength : Obligations.PaddedBufferHoldsMessageMarkerAndBitLength := by
  intro msg len hlen total p
  have hfits : len.toNat + 9 ≤ total := nblkOf_fits len.toNat
  have hbyte (k : Nat) (hk : k < 8) : (p (total - (k + 1))).toNat = len.toNat * 8 / 2 ^ (8 * k) % 256 :=
    padByte_fromEnd_toNat msg hlen hk
  refine ⟨⟨by omega, Nat.mul_mod_right 64 _, hfits, fun k hk => Nat.mul_le_mul_left 64 (nblkOf_least hk)⟩,
    fun h => by rw [h]; rfl, fun h => by rw [h]; rfl, fun i hi => padByte_message msg (by omega) hi,
    padByte_marker msg (by omega) rfl, ?_⟩
  rw [hbyte 7 (by decide), hbyte 6 (by decide), hbyte 5 (by decide), hbyte 4 (by decide), hbyte 3 (by decide),
    hbyte 2 (by decide), hbyte 1 (by decide), hbyte 0 (by decide)]
  omega

/-! ## `PADBLK` -/

theorem State.messageReads_ascending (s : State) : s.messageReads.Pairwise (· < ·) :=
  (List.pairwise_lt_range.map (64 * s.n.toNat + ·) fun _ _ h => Nat.add_lt_add_left h _).filter _

/-- Every byte of an accepted message can be read (R202). -/
theorem State.messageReadable_of_len_le {s : State} (h : s.len.toNat ≤ s.msgExtent.val) : s.messageReadable = true := by
  refine s.messageReadable_iff.mpr fun a ha => ?_
  obtain ⟨-, -, -, hlen⟩ := (s.mem_messageReads a).mp ha
  exact Nat.lt_of_lt_of_le hlen h

/-- Settles O17: every byte read exists, and the end of the buffer, past `LEN`, cuts no read off. -/
theorem padblkLoadsTheCurrentBlock : Obligations.PadblkLoadsTheCurrentBlock := by
  refine ⟨rfl, fun s hcheck hnblk _ => ⟨?_, fun a => ?_, s.messageReads_ascending⟩⟩
  · obtain ⟨-, hextent, -⟩ := lengthCheck_ok.mp hcheck
    rw [exec_padblk_readable (State.messageReadable_of_len_le hextent), State.paddedBytes, hnblk]
    rfl
  · have hsize : s.len.toNat + 9 ≤ s.paddedBytes := by
      rw [State.paddedBytes, hnblk]
      exact nblkOf_fits s.len.toNat
    rw [s.mem_messageReads]
    constructor
    · rintro ⟨hlow, hhigh, -, hlen⟩
      exact ⟨hlow, hhigh, hlen⟩
    · rintro ⟨hlow, hhigh, hlen⟩
      exact ⟨hlow, hhigh, by omega, hlen⟩

end Sys2Proof.Machine
end

section
/-! The scheduler of 42_scheduler.md: the schedule of a block (R141, R142), `LDW` and `EXPW` (R143, R144), and their run
of 64 steps (R145). -/

namespace Sys2Proof.Machine

/-! ## The schedule of a block -/

/-- The words below 16 + k of the schedule are final once k words of the recurrence are computed. -/
theorem expand_get (blk : Vector Byte 64) {k i : Nat} (hk : k ≤ 48) (hi : i < 64) (h : i < 16 + k) :
    (expand blk)[i] = (expandFrom (loadWords blk) k)[i] := by
  have hstable := expandFrom_stable (loadWords blk) k (48 - k) i hi h
  rwa [Nat.add_sub_cancel' hk] at hstable

theorem expand_get_load (blk : Vector Byte 64) (t : Fin 16) :
    (expand blk)[t.val]'(by omega) = blockWord blk t := by
  rw [expand_get blk (Nat.zero_le 48) _ (by omega)]
  exact loadWords_get blk t.val t.isLt

theorem expand_get_recurrence (blk : Vector Byte 64) (t : Fin 64) (ht : 16 ≤ t.val) :
    (expand blk)[t] = scheduleWord (expand blk) t := by
  obtain ⟨k, hk⟩ := Nat.exists_eq_add_of_le ht
  have hlt : 16 + k < 64 := by omega
  obtain rfl : t = ⟨16 + k, hlt⟩ := Fin.ext hk
  calc (expand blk)[16 + k]
      = (expandFrom (loadWords blk) (k + 1))[16 + k] := expand_get blk (by omega) hlt (by omega)
    _ = scheduleWord (expandFrom (loadWords blk) k) ⟨16 + k, hlt⟩ := by
      simp only [expandFrom_succ _ k hlt, Vector.getElem_set_self]
    _ = scheduleWord (expand blk) ⟨16 + k, hlt⟩ :=
      scheduleWord_congr _ ht fun i hi h => (expand_get blk (by omega) hi h).symm

/-- Settles O23: both ranges of the schedule, the recurrence over words that no later one changes. -/
theorem expandIsTheScheduleOfTheBlock : Obligations.ExpandIsTheScheduleOfTheBlock :=
  fun blk => ⟨expand_get_load blk, expand_get_recurrence blk⟩

/-! ## The two micro-operations -/

/-- Settles O20: the number `be32` stands for, in the word that `LDW` writes. -/
theorem ldwLoadsOneBlockWord : Obligations.LdwLoadsOneBlockWord := by
  intro t
  have hword : 0b01100#5 ++ BitVec.ofNat 4 t.val = 0b011#3 ++ BitVec.ofNat 6 t.val := by revert t; decide
  refine ⟨hword ▸ decode_ldw t, fun s => ⟨blockWord s.blk t, be32_toNat _ _ _ _, ?_⟩⟩
  rw [exec_ldw, State.seqAfterLdw_eq]
  rfl

theorem scheduleWord_toNat (w : Vector Word 64) (t : Fin 64) : (scheduleWord w t).toNat =
    ((ssig1 (w[t.val - 2]'(by omega))).toNat + (w[t.val - 7]'(by omega)).toNat +
      (ssig0 (w[t.val - 15]'(by omega))).toNat + (w[t.val - 16]'(by omega)).toNat) % 2 ^ 32 := by
  simp only [scheduleWord, BitVec.toNat_add, Nat.mod_add_mod]

/-- Settles O21: the recurrence as a sum of numbers, in the word that `EXPW` writes. -/
theorem expwComputesOneScheduleWord : Obligations.ExpwComputesOneScheduleWord := by
  refine fun t ht => ⟨decode_expw ht, fun s => ⟨scheduleWord s.w t, scheduleWord_toNat s.w t, ?_⟩⟩
  rw [exec_expw ht, State.seqAfterExpw_eq]
  rfl

/-! ## The words computed so far -/

/-- The words below `k` of `w` are those of the schedule of `blk`. -/
def ScheduledUpTo (blk : Vector Byte 64) (k : Nat) (w : Vector Word 64) : Prop :=
  ∀ i : Fin 64, i.val < k → w[i] = (expand blk)[i]

section
variable {blk : Vector Byte 64} {w : Vector Word 64}

theorem scheduledUpTo_zero : ScheduledUpTo blk 0 w := fun _ h => absurd h (Nat.not_lt_zero _)

theorem ScheduledUpTo.eq_expand (h : ScheduledUpTo blk 64 w) : w = expand blk :=
  Vector.ext fun i hi => h ⟨i, hi⟩ hi

theorem ScheduledUpTo.set {t : Fin 64} {x : Word} (h : ScheduledUpTo blk t.val w) (hx : x = (expand blk)[t]) :
    ScheduledUpTo blk (t.val + 1) (w.set t.val x) := by
  intro i hi
  obtain heq | hlt := Nat.eq_or_lt_of_le (Nat.le_of_lt_succ hi)
  · obtain rfl := Fin.ext heq
    exact (Vector.getElem_set_self _).trans hx
  · exact (Vector.getElem_set_ne _ _ (Nat.ne_of_gt hlt)).trans (h i hlt)

/-- What `LDW t` writes (R143) continues the schedule. -/
theorem ScheduledUpTo.ldw {t : Fin 16} (h : ScheduledUpTo blk t.val w) :
    ScheduledUpTo blk (t.val + 1) (w.set t.val (blockWord blk t)) :=
  ScheduledUpTo.set (t := t.castLE (by decide)) h (expand_get_load blk t).symm

/-- What `EXPW t` writes (R144) continues the schedule: it reads words below `t` alone. -/
theorem ScheduledUpTo.expw {t : Fin 64} (ht : 16 ≤ t.val) (h : ScheduledUpTo blk t.val w) :
    ScheduledUpTo blk (t.val + 1) (w.set t.val (scheduleWord w t)) := by
  refine h.set ?_
  rw [expand_get_recurrence blk t ht]
  exact scheduleWord_congr t ht fun i hi => h ⟨i, hi⟩

end

/-! ## The run of the scheduler -/

/-- The state in which the scheduler comes to schedule word `k`, with `W` = `w`: at `LDW k`, at `EXPW k`, and past the
last word at `LDV` (R145). -/
def State.atWord (s : State) (k : Nat) (w : Vector Word 64) : State :=
  { s with w := w }.seq (if k < 16 then .ldw else if k < 64 then .expw else .ldv) (BitVec.ofNat 6 k)

theorem State.atWord_zero {s : State} (hu : s.uop = .ldw) (hi : s.idx = 0) : s.atWord 0 s.w = s := by
  cases s
  cases hu
  cases hi
  rfl

theorem State.seqAfterLdw_atWord (s : State) (t : Fin 16) (w : Vector Word 64) (x : Word) :
    ((s.atWord t.val w).setW (t.castLE (by decide)) x).seqAfterLdw t = s.atWord (t.val + 1) (w.set t.val x) := by
  rw [State.seqAfterLdw_eq]
  by_cases ht : t.val < 15
  · simp [State.atWord, State.seq, State.setW, ht]
  · obtain rfl : t = 15 := Fin.ext (by omega)
    rfl

theorem State.seqAfterExpw_atWord (s : State) {t : Fin 64} (h16 : 16 ≤ t.val) (w : Vector Word 64) (x : Word) :
    ((s.atWord t.val w).setW t x).seqAfterExpw t = s.atWord (t.val + 1) (w.set t.val x) := by
  rw [State.seqAfterExpw_eq]
  by_cases ht : t.val < 63
  · have hnext : ¬ t.val + 1 < 16 := by omega
    have hlast : t.val + 1 < 64 := by omega
    simp only [State.atWord, State.seq, State.setW, if_pos ht, if_neg hnext, if_pos hlast]
  · obtain rfl : t = 63 := Fin.ext (by omega)
    rfl

theorem step_atWord_ldw {s : State} (hb : s.st = .busy) (hm : s.moves = []) (t : Fin 16) (w : Vector Word 64) :
    step (s.atWord t.val w) = .next (s.atWord (t.val + 1) (w.set t.val (blockWord s.blk t))) := by
  have hidx : (s.atWord t.val w).idx.toNat = t.val := index_toNat (by omega)
  rw [step_ldw (s := s.atWord t.val w) t hb hm (if_pos t.isLt) hidx, State.seqAfterLdw_atWord]
  rfl

theorem step_atWord_expw {s : State} (hb : s.st = .busy) (hm : s.moves = []) {t : Fin 64} (h16 : 16 ≤ t.val)
    (w : Vector Word 64) :
    step (s.atWord t.val w) = .next (s.atWord (t.val + 1) (w.set t.val (scheduleWord w t))) := by
  have huop : (s.atWord t.val w).uop = .expw := (if_neg (Nat.not_lt.mpr h16)).trans (if_pos t.isLt)
  rw [step_expw (s := s.atWord t.val w) t h16 hb hm huop (index_toNat t.isLt), State.seqAfterExpw_atWord s h16]
  rfl

/-- One step of the scheduler: one more word of the schedule. -/
theorem step_atWord {s : State} (hb : s.st = .busy) (hm : s.moves = []) {k : Nat} (hk : k < 64) {w : Vector Word 64}
    (hw : ScheduledUpTo s.blk k w) :
    ∃ w', ScheduledUpTo s.blk (k + 1) w' ∧ step (s.atWord k w) = .next (s.atWord (k + 1) w') := by
  by_cases h16 : k < 16
  · exact ⟨_, ScheduledUpTo.ldw (t := ⟨k, h16⟩) hw, step_atWord_ldw hb hm ⟨k, h16⟩ w⟩
  · have hle : 16 ≤ k := Nat.le_of_not_lt h16
    exact ⟨_, ScheduledUpTo.expw (t := ⟨k, hk⟩) hle hw, step_atWord_expw hb hm (t := ⟨k, hk⟩) hle w⟩

theorem runSteps_atWord {s : State} (hb : s.st = .busy) (hm : s.moves = []) (w : Vector Word 64) {k : Nat}
    (hk : k ≤ 64) :
    ∃ w', ScheduledUpTo s.blk k w' ∧ runSteps k (s.atWord 0 w) = .next (s.atWord k w') := by
  induction k with
  | zero => exact ⟨w, scheduledUpTo_zero, rfl⟩
  | succ k ih =>
    obtain ⟨u, hu, hrun⟩ := ih (by omega)
    obtain ⟨w', hw', hstep⟩ := step_atWord hb hm hk hu
    exact ⟨w', hw', (runSteps_add k 1 hrun).trans (runSteps_one hstep)⟩

/-- Settles O24: after k of the 64 steps the words below k are those of the schedule, whatever the others are. -/
theorem schedulerRunComputesExpand : Obligations.SchedulerRunComputesExpand := by
  intro s hb hu hi hm
  obtain ⟨w, hw, hrun⟩ := runSteps_atWord hb hm s.w (Nat.le_refl 64)
  rw [State.atWord_zero hu hi, hw.eq_expand] at hrun
  exact hrun

end Sys2Proof.Machine
end

section
/-! The compressor of 43_compressor.md: `LDV`, `RND` and `FFWD` (R151 to R155), and their run of 66 steps (R156). -/

namespace Sys2Proof.Machine

/-! ## The three micro-operations -/

/-- Settles O25: `LDV` names its three writes. -/
theorem ldvCopiesTheHashState : Obligations.LdvCopiesTheHashState :=
  ⟨rfl, exec_ldv⟩

theorem temp1_toNat (kj wj : Word) (v : Vector Word 8) : (temp1 kj wj v).toNat =
    (v[7].toNat + (bsig1 v[4]).toNat + (ch v[4] v[5] v[6]).toNat + kj.toNat + wj.toNat) % 2 ^ 32 := by
  simp only [temp1, BitVec.toNat_add, Nat.mod_add_mod]

theorem temp2_toNat (v : Vector Word 8) :
    (temp2 v).toNat = ((bsig0 v[0]).toNat + (maj v[0] v[1] v[2]).toNat) % 2 ^ 32 :=
  BitVec.toNat_add _ _

/-- Settles O26: the sums of the round as numbers, in the rotation that `roundWith` assigns. -/
theorem rndIsOneCompressionRound : Obligations.RndIsOneCompressionRound := by
  refine fun j => ⟨decode_rnd j, fun s => ⟨temp1 K[j] s.w[j] s.v, temp2 s.v, _, _, temp1_toNat _ _ _, temp2_toNat _,
    BitVec.toNat_add _ _, BitVec.toNat_add _ _, ?_⟩⟩
  rw [exec_rnd, State.seqAfterRnd_eq]
  rfl

/-- One word of the feed-forward as a number. -/
theorem feedForward_get_toNat (h v : Vector Word 8) (k : Fin 8) :
    (feedForward h v)[k].toNat = (h[k].toNat + v[k].toNat) % 2 ^ 32 := by
  rw [feedForward_get, BitVec.toNat_add]

/-- Settles O27: the two ways on from `FFWD`, by whether a further block is left. -/
theorem ffwdFeedsForwardAndAdvances : Obligations.FfwdFeedsForwardAndAdvances := by
  refine ⟨rfl, fun s => ⟨feedForward s.h s.v, narrowCount (s.n.toNat + 1), feedForward_get_toNat s.h s.v,
    narrowCount_toNat, ?_⟩⟩
  rw [exec_ffwd]
  by_cases hmore : s.n.toNat + 1 < s.nblk.toNat
  · rw [if_pos hmore, State.seqAfterFfwd_more (by exact hmore)]
    rfl
  · rw [if_neg hmore, State.seqAfterFfwd_last (by exact hmore)]
    rfl

/-! ## The run of the compressor -/

/-- The state in which the compressor comes to round `k`, with the rounds before it done: at `RND k`, and past the last
round at `FFWD` (R156). -/
def State.atRound (s : State) (k : Nat) : State :=
  (s.setV (rounds s.w s.h k)).seq (if k < 64 then .rnd else .ffwd) (BitVec.ofNat 6 k)

theorem step_ldv_atRound {s : State} (hb : s.st = .busy) (hm : s.moves = []) (hu : s.uop = .ldv) (hi : s.idx = 0) :
    step s = .next (s.atRound 0) :=
  step_ldv hb hm hu hi

theorem State.seqAfterRnd_atRound (s : State) (j : Fin 64) :
    ((s.atRound j.val).setV (rounds s.w s.h (j.val + 1))).seqAfterRnd j = s.atRound (j.val + 1) := by
  rw [State.seqAfterRnd_eq]
  by_cases hj : j.val < 63
  · have hnext : j.val + 1 < 64 := by omega
    simp only [State.atRound, State.seq, State.setV, if_pos hj, if_pos hnext]
  · obtain rfl : j = 63 := Fin.ext (by omega)
    rfl

/-- One step of the compressor: one more round. -/
theorem step_atRound {s : State} (hb : s.st = .busy) (hm : s.moves = []) (j : Fin 64) :
    step (s.atRound j.val) = .next (s.atRound (j.val + 1)) := by
  have huop : (s.atRound j.val).uop = .rnd := if_pos j.isLt
  rw [step_rnd (s := s.atRound j.val) j hb hm huop (index_toNat j.isLt), ← State.seqAfterRnd_atRound, rounds_succ]
  rfl

theorem runSteps_atRound {s : State} (hb : s.st = .busy) (hm : s.moves = []) {k : Nat} (hk : k ≤ 64) :
    runSteps k (s.atRound 0) = .next (s.atRound k) := by
  induction k with
  | zero => rfl
  | succ k ih =>
    exact (runSteps_add k 1 (ih (Nat.le_of_succ_le hk))).trans (runSteps_one (step_atRound hb hm ⟨k, hk⟩))

/-- The last step of the compressor: `FFWD` after round 63 adds up to `compress(H, W)`. -/
theorem step_atRound_ffwd {s : State} (hb : s.st = .busy) (hm : s.moves = []) :
    step (s.atRound 64) = .next
      ((((s.atRound 64).setH (compress s.h s.w)).setN (narrowCount (s.n.toNat + 1))).seqAfterFfwd s.n.toNat) :=
  step_ffwd (s := s.atRound 64) hb hm rfl rfl

/-- Settles O28: one step for `LDV`, 64 for the rounds by induction, one for `FFWD`. -/
theorem compressorRunComputesCompress : Obligations.CompressorRunComputesCompress := by
  intro s hb hu hi hm
  refine ⟨narrowCount (s.n.toNat + 1), narrowCount_toNat, ?_⟩
  rw [runSteps_succ 65 (step_ldv_atRound hb hm hu hi), runSteps_add 64 1 (runSteps_atRound hb hm (Nat.le_refl 64)),
    runSteps_one (step_atRound_ffwd hb hm), State.seqAfterFfwd_eq, ← hb]
  rfl

end Sys2Proof.Machine
end

section
/-! The sequencer of 44_sequencer.md one step at a time: the host commands (R172, R178, R180), `INIT` and `WAIT` (R173,
R179), the successor of every micro-operation (R174), and that a good BUSY engine always has a step (R192). -/

namespace Sys2Proof.Machine

/-! ## The host commands -/

/-- Settles O30: `NOP` answers the state it finds. -/
theorem nopChangesNothing : Obligations.NopChangesNothing :=
  fun arg s => ⟨decode_nop arg, exec_nop arg s⟩

theorem acceptHash_started {len : BitVec 64} {s : State}
    (hc : lengthCheck len.toNat s.msgExtent.val s.capBytes.val = .noError) :
    acceptHash len s = (s.setLen len).startOperation := by
  obtain ⟨-, ha⟩ | ⟨hne, -⟩ := acceptHash_cases len s
  · exact ha
  · exact absurd hc hne

theorem acceptHash_faulted {len : BitVec 64} {s : State} {c : ErrCode}
    (hc : lengthCheck len.toNat s.msgExtent.val s.capBytes.val = c) (hne : c ≠ .noError) :
    acceptHash len s = (s.setLen len).raiseFault c := by
  subst hc
  obtain ⟨h0, -⟩ | ⟨-, ha⟩ := acceptHash_cases len s
  · exact absurd h0 hne
  · exact ha

/-- Settles O31: the four outcomes of the length check, in the order of R206. -/
theorem hashStartsTheOperationOrRaisesTheFirstCause : Obligations.HashStartsTheOperationOrRaisesTheFirstCause := by
  refine fun len s => ⟨decode_hash len, fun hb => ?_⟩
  rw [exec_hash_accepted len hb]
  refine ⟨fun hlimit => ?_, fun hlen hext => ?_, fun hlen hext hcap => ?_, fun hlen hext hcap => ?_⟩
  · rw [acceptHash_faulted (lengthCheck_overflow hlimit) (by decide)]; rfl
  · rw [acceptHash_faulted (lengthCheck_mismatch hlen hext) (by decide)]; rfl
  · rw [acceptHash_faulted (lengthCheck_allocation hlen hext hcap) (by decide)]; rfl
  · rw [acceptHash_started (lengthCheck_ok.mpr ⟨hlen, hext, hcap⟩)]; rfl

theorem step_hash {s : State} {len : BitVec 64} {ms : List Move} (hm : s.moves = .command (0b01#2 ++ len) :: ms) :
    step s = exec (.hash len) (s.setMoves ms) :=
  (step_command hm).trans (commandStep_decoded (decode_hash len))

theorem step_hash_busy {s : State} {len : BitVec 64} {ms : List Move} (hb : s.st = .busy)
    (hm : s.moves = .command (0b01#2 ++ len) :: ms) : step s = .next (s.setMoves ms) :=
  (step_hash hm).trans (exec_hash_busy len hb)

/-- Settles O34: presenting the command is one step, which only takes the move off the list. -/
theorem hashWhileBusyIsIgnored : Obligations.HashWhileBusyIsIgnored :=
  fun len _ _ hb => ⟨exec_hash_busy len hb, step_hash_busy hb, fun k => runSteps_succ k (step_hash_busy hb rfl)⟩

/-- Settles O48: of the cases of a step only `RESET` and the engine's own write a register while BUSY. -/
theorem hostMovesWhileBusyLeaveTheRegisters : Obligations.HostMovesWhileBusyLeaveTheRegisters := by
  intro s t m ms hb hm hne hnr h
  have hnext : s.nextMove = m := by rw [State.nextMove, hm]; rfl
  have hpop : s.popMove.moves = ms := by rw [State.popMove, hm]; rfl
  cases step_next h with
  | micro he => exact absurd (hnext.symm.trans he) hne
  | reset hr => exact absurd (hnext.symm.trans hr) hnr
  | hash _ _ _ _ hnb => exact absurd hb hnb
  | rest | write | bind => exact ⟨⟨rfl, rfl, rfl, rfl, rfl, rfl, rfl, rfl, rfl, rfl, rfl⟩, hpop⟩

/-! ## The driver -/

/-- Settles O29: the count of a length of the domain fits `NBLK` (R35). -/
theorem initLoadsTheInitialHashState : Obligations.InitLoadsTheInitialHashState :=
  ⟨rfl, fun s => ⟨narrowCount (nblkOf s.len.toNat), fun hlen => narrowCount_toNat (nblkOf_lt hlen), exec_init s⟩⟩

theorem step_rest {s : State} (hb : s.st ≠ .busy) (hm : s.moves = []) : step s = .next s :=
  (step_noMoves hm).trans (engineStep_rest hb)

theorem runSteps_rest {s : State} (hb : s.st ≠ .busy) (hm : s.moves = []) (k : Nat) : runSteps k s = .next s := by
  induction k with
  | zero => rfl
  | succ k ih => exact (runSteps_succ k (step_rest hb hm)).trans ih

/-- Settles O35: a step at rest is the identity, and so is a run of such steps. -/
theorem waitChangesNothing : Obligations.WaitChangesNothing :=
  ⟨rfl, exec_wait, fun _ => runSteps_rest⟩

/-! ## The engine's step -/

/-- Settles O37: the engine runs what the control word decodes to, listed or not. -/
theorem engineStepRunsTheDecodedControlWord : Obligations.EngineStepRunsTheDecodedControlWord := by
  intro s i hb hd
  exact ⟨fun hm => (step_noMoves hm).trans (engineStep_decoded hb hd),
    fun ms hm => (step_move hm).trans (engineStep_decoded (s := s.setMoves ms) hb hd)⟩

theorem exec_hash_busy_after {len : BitVec 64} {s t : State} (h : exec (.hash len) s = .next t) (hb : s.st ≠ .busy)
    (ht : t.st = .busy) : t.uop = .init ∧ t.idx = 0 := by
  rw [exec_hash_accepted len hb] at h
  cases h
  obtain ⟨-, ha⟩ | ⟨-, ha⟩ := acceptHash_cases len s
  · simp [ha]
  · simp [ha] at ht

/-- Settles O36: one case for each instruction, and for an indexed one whether its index is the last. -/
theorem successorOfEveryMicroOperation : Obligations.SuccessorOfEveryMicroOperation := by
  intro i s t h
  cases i with
  | nop | wait => simp
  | hash len => simpa using exec_hash_busy_after h
  | init | ldv => cases h; simp
  | padblk => obtain ⟨-, rfl⟩ := exec_padblk_next h; simp
  | ldw k =>
    cases h
    by_cases hk : k.val < 15
    · have hne : k ≠ 15 := Fin.ne_of_lt hk
      simp [State.seqAfterLdw_eq, hk, hne, index_toNat (n := k.val + 1) (by omega)]
    · obtain rfl : k = 15 := Fin.ext (by omega)
      simp [State.seqAfterLdw_eq]
  | expw k =>
    obtain ⟨-, rfl⟩ := exec_expw_next h
    by_cases hk : k.val < 63
    · have hne : k ≠ 63 := Fin.ne_of_lt hk
      simp [State.seqAfterExpw_eq, hk, hne, index_toNat (n := k.val + 1) (by omega)]
    · obtain rfl : k = 63 := Fin.ext (by omega)
      simp [State.seqAfterExpw_eq]
  | rnd j =>
    cases h
    by_cases hj : j.val < 63
    · have hne : j ≠ 63 := Fin.ne_of_lt hj
      simp [State.seqAfterRnd_eq, hj, hne, index_toNat (n := j.val + 1) (by omega)]
    · obtain rfl : j = 63 := Fin.ext (by omega)
      simp [State.seqAfterRnd_eq]
  | ffwd =>
    cases h
    by_cases hmore : s.n.toNat + 1 < s.nblk.toNat
    · simp [State.seqAfterFfwd_eq, hmore]
    · simp [State.seqAfterFfwd_eq, hmore]

/-- What the sequencer decodes to runs: an `EXPW` has an index from 16 on (R85), and every message byte exists (R52). -/
theorem exec_decoded_next {s : State} {i : Instr} (hd : decode (.control s.controlWord) = .ok i)
    (hext : s.len.toNat ≤ s.msgExtent.val) : ∃ t, exec i s = .next t := by
  obtain ⟨-, -, rfl⟩ | ⟨-, -, rfl⟩ | ⟨-, -, rfl⟩ | ⟨-, k, -, rfl⟩ | ⟨-, k, -, h16, rfl⟩ | ⟨-, -, rfl⟩ |
    ⟨-, j, -, rfl⟩ | ⟨-, -, rfl⟩ := decode_sequencer_ok hd
  · exact ⟨_, exec_wait s⟩
  · exact ⟨_, exec_init s⟩
  · exact ⟨_, exec_padblk_readable (State.messageReadable_of_len_le hext)⟩
  · exact ⟨_, exec_ldw k s⟩
  · exact ⟨_, exec_expw h16⟩
  · exact ⟨_, exec_ldv s⟩
  · exact ⟨_, exec_rnd j s⟩
  · exact ⟨_, exec_ffwd s⟩

theorem step_engineMoves {s : State} (he : s.engineMoves) : step s = engineStep s.popMove := by
  rw [step_eq_moveStep, he]; rfl

theorem State.Inv.decoded {s : State} (hs : s.Inv) : ∃ i, decode (.control s.controlWord) = .ok i := by
  have hlegal := hs.legal
  cases hd : decode (.control s.controlWord) with
  | ok i => exact ⟨i, rfl⟩
  | error r => rw [hd] at hlegal; cases hlegal

/-- Settles O52: the legal control word of a good state runs, since its `LEN` passed the checks. -/
theorem busyEngineAlwaysHasAStep : Obligations.BusyEngineAlwaysHasAStep := by
  intro s hs hb he
  obtain ⟨i, hd⟩ := hs.popMove.decoded
  obtain ⟨-, hext, -⟩ := lengthCheck_ok.mp (hs.domain hb)
  rw [step_engineMoves he, engineStep_decoded (s := s.popMove) hb hd]
  exact exec_decoded_next hd hext

end Sys2Proof.Machine
end

section
/-! Agreement with the functional level: `digest` depends on the first `LEN` bytes alone (R170), and every step from a
good state keeps `State.Agrees`, the correspondence of R174 to R177. -/

namespace Sys2Proof.Machine

/-! ## What the functional level depends on -/

section
variable {m m' : Nat → Byte} {len : BitVec 64} (h : ∀ a, a < len.toNat → m' a = m a)
include h

theorem padOf_congr (n : Nat) : padOf m' len n = padOf m len n :=
  padBlock_congr len _ n fun _ _ _ hl => h _ hl

theorem hashAfter_congr (n : Nat) : hashAfter m' len n = hashAfter m len n := by
  induction n with
  | zero => rfl
  | succ n ih => rw [hashAfter_succ, hashAfter_succ, ih, padOf_congr h]

theorem digest_congr : digest m' len = digest m len := hashAfter_congr h _

end

/-- Settles O57: the fold reads the message through its blocks alone. -/
theorem digestDependsOnTheMessageBytesAlone : Obligations.DigestDependsOnTheMessageBytesAlone :=
  fun _ _ _ => digest_congr

/-! ## The agreement at each point of an operation -/

section
variable {s : State}

theorem State.agrees_done (hd : s.st = .done) : s.Agrees ↔ s.h = digest s.message s.len := by
  simp [State.Agrees, hd]

theorem State.agrees_idle (hi : s.st = .idle) : s.Agrees := by simp [State.Agrees, hi]

theorem State.agrees_error (he : s.st = .error) : s.Agrees := by simp [State.Agrees, he]

theorem State.agrees_init (hb : s.st = .busy) (hu : s.uop = .init) : s.Agrees := by simp [State.Agrees, hb, hu]

theorem State.agrees_padblk (hb : s.st = .busy) (hu : s.uop = .padblk) : s.Agrees ↔ s.hashed := by
  simp [State.Agrees, hb, hu]

theorem State.agrees_ldw (hb : s.st = .busy) (hu : s.uop = .ldw) : s.Agrees ↔
    s.hashed ∧ s.blk = padOf s.message s.len s.n.toNat ∧ s.scheduledTo s.idx.toNat := by
  simp [State.Agrees, hb, hu]

theorem State.agrees_expw (hb : s.st = .busy) (hu : s.uop = .expw) : s.Agrees ↔
    s.hashed ∧ s.scheduledTo s.idx.toNat := by
  simp [State.Agrees, hb, hu]

theorem State.agrees_ldv (hb : s.st = .busy) (hu : s.uop = .ldv) : s.Agrees ↔ s.hashed ∧ s.scheduledTo 64 := by
  simp [State.Agrees, hb, hu]

theorem State.agrees_rnd (hb : s.st = .busy) (hu : s.uop = .rnd) : s.Agrees ↔
    s.hashed ∧ s.scheduledTo 64 ∧ s.v = rounds s.w s.h s.idx.toNat := by
  simp [State.Agrees, hb, hu]

theorem State.agrees_ffwd (hb : s.st = .busy) (hu : s.uop = .ffwd) : s.Agrees ↔
    s.hashed ∧ s.scheduledTo 64 ∧ s.v = rounds s.w s.h 64 := by
  simp [State.Agrees, hb, hu]

end

theorem State.scheduledTo.setW {s : State} {t : Fin 64} {x : Word} (h : s.scheduledTo t.val)
    (hx : x = (expand (padOf s.message s.len s.n.toNat))[t]) : (s.setW t x).scheduledTo (t.val + 1) :=
  ScheduledUpTo.set h hx

/-- The agreement speaks of the registers and of the first `LEN` message bytes alone. -/
theorem State.Agrees.congr {s t : State} (hs : s.Agrees) (hr : s.sameRegisters t)
    (hm : ∀ a, a < s.len.toNat → t.message a = s.message a) : t.Agrees := by
  obtain ⟨hh, hv, hw, hblk, hlen, -, hn, hst, hu, hi, -⟩ := hr
  unfold State.Agrees State.hashed State.scheduledTo at *
  rw [hh, hv, hw, hblk, hlen, hn, hst, hu, hi, padOf_congr hm, hashAfter_congr hm, digest_congr hm]
  exact hs

/-! ## Every micro-operation keeps it -/

theorem State.seqAfterLdw_more {s : State} {t : Fin 16} (h : t.val < 15) :
    s.seqAfterLdw t = s.seq .ldw (BitVec.ofNat 6 (t.val + 1)) := if_pos h

theorem State.seqAfterExpw_more {s : State} {t : Fin 64} (h : t.val < 63) :
    s.seqAfterExpw t = s.seq .expw (BitVec.ofNat 6 (t.val + 1)) := if_pos h

theorem State.seqAfterRnd_more {s : State} {j : Fin 64} (h : j.val < 63) :
    s.seqAfterRnd j = s.seq .rnd (BitVec.ofNat 6 (j.val + 1)) := if_pos h

section
variable {s : State} (hb : s.st = .busy) (ha : s.Agrees)
include hb ha

/-- `LDW t` adds word `t` of the current block to the schedule. -/
theorem State.Agrees.ldw {t : Fin 16} (hu : s.uop = .ldw) (hi : s.idx.toNat = t.val) :
    ((s.setW (t.castLE (by decide)) (blockWord s.blk t)).seqAfterLdw t).Agrees := by
  obtain ⟨hh, hblk, hw⟩ := (State.agrees_ldw hb hu).mp ha
  rw [hi] at hw
  have hword : blockWord s.blk t = (expand (padOf s.message s.len s.n.toNat))[t.val] := by
    rw [hblk, expand_get_load]
  have hw' := State.scheduledTo.setW (t := t.castLE (by decide)) hw hword
  by_cases ht : t.val < 15
  · have hidx : (BitVec.ofNat 6 (t.val + 1)).toNat = t.val + 1 := index_toNat (by omega)
    rw [State.seqAfterLdw_more ht]
    exact Iff.mpr (State.agrees_ldw hb rfl) ⟨hh, hblk, by rw [State.seq_idx, hidx]; exact hw'⟩
  · obtain rfl : t = 15 := Fin.ext (by omega)
    exact Iff.mpr (State.agrees_expw hb rfl) ⟨hh, hw'⟩

/-- `EXPW t` adds word `t` of the recurrence to the schedule. -/
theorem State.Agrees.expw {t : Fin 64} (hu : s.uop = .expw) (hi : s.idx.toNat = t.val) (h16 : 16 ≤ t.val) :
    ((s.setW t (scheduleWord s.w t)).seqAfterExpw t).Agrees := by
  obtain ⟨hh, hw⟩ := (State.agrees_expw hb hu).mp ha
  rw [hi] at hw
  have hw' : (s.setW t (scheduleWord s.w t)).scheduledTo (t.val + 1) := ScheduledUpTo.expw h16 hw
  by_cases ht : t.val < 63
  · have hidx : (BitVec.ofNat 6 (t.val + 1)).toNat = t.val + 1 := index_toNat (by omega)
    rw [State.seqAfterExpw_more ht]
    exact Iff.mpr (State.agrees_expw hb rfl) ⟨hh, by rw [State.seq_idx, hidx]; exact hw'⟩
  · obtain rfl : t = 63 := Fin.ext (by omega)
    exact Iff.mpr (State.agrees_ldv hb rfl) ⟨hh, hw'⟩

/-- `RND j` is the round after the rounds below `j` (R154). -/
theorem State.Agrees.rnd {j : Fin 64} (hu : s.uop = .rnd) (hi : s.idx.toNat = j.val) :
    ((s.setV (roundStep j s.w s.v)).seqAfterRnd j).Agrees := by
  obtain ⟨hh, hw, hv⟩ := (State.agrees_rnd hb hu).mp ha
  have hv' : roundStep j s.w s.v = rounds s.w s.h (j.val + 1) := by rw [rounds_succ, hv, hi]
  by_cases hj : j.val < 63
  · have hidx : (BitVec.ofNat 6 (j.val + 1)).toNat = j.val + 1 := index_toNat (by omega)
    rw [State.seqAfterRnd_more hj]
    exact Iff.mpr (State.agrees_rnd hb rfl) ⟨hh, hw, by rw [State.seq_idx, hidx]; exact hv'⟩
  · obtain rfl : j = 63 := Fin.ext (by omega)
    exact Iff.mpr (State.agrees_ffwd hb rfl) ⟨hh, hw, hv'⟩

/-- `FFWD` completes `compress` on the current block: another step of the fold, or the digest (R170, R177). -/
theorem State.Agrees.ffwd (hs : s.Inv) (hu : s.uop = .ffwd) :
    (((s.setH (feedForward s.h s.v)).setN (narrowCount (s.n.toNat + 1))).seqAfterFfwd s.n.toNat).Agrees := by
  obtain ⟨hh, hw, hv⟩ := (State.agrees_ffwd hb hu).mp ha
  obtain ⟨hnblk, hn⟩ := hs.blocks hb (by simp [hu])
  have hsucc : (narrowCount (s.n.toNat + 1)).toNat = s.n.toNat + 1 := narrowCount_toNat (by omega)
  have hfold : feedForward s.h s.v = hashAfter s.message s.len (s.n.toNat + 1) := by
    rw [hashAfter_succ, ← ScheduledUpTo.eq_expand hw, ← hh, hv]
    rfl
  by_cases hmore : s.n.toNat + 1 < s.nblk.toNat
  · rw [State.seqAfterFfwd_more (by exact hmore)]
    exact Iff.mpr (State.agrees_padblk hb rfl) (hfold.trans (congrArg _ hsucc.symm))
  · have hlast : s.n.toNat + 1 = nblkOf s.len.toNat := by omega
    rw [State.seqAfterFfwd_last (by exact hmore), State.agrees_done rfl]
    exact hfold.trans (congrArg _ hlast)

end

theorem MicroStep.agrees {s t : State} (hm : MicroStep s t) (hs : s.Inv) (hb : s.st = .busy) (ha : s.Agrees) :
    t.Agrees := by
  cases hm with
  | wait => exact ha
  | init => exact Iff.mpr (State.agrees_padblk hb rfl) rfl
  | padblk hu =>
    have hh := (State.agrees_padblk hb hu).mp ha
    obtain ⟨hnblk, -⟩ := hs.blocks hb (by simp [hu])
    have hblk : padBlock s.message s.len s.paddedBytes s.n.toNat = padOf s.message s.len s.n.toNat := by
      rw [State.paddedBytes, hnblk]; rfl
    exact Iff.mpr (State.agrees_ldw hb rfl) ⟨hh, hblk, scheduledUpTo_zero⟩
  | ldw k hu hi => exact ha.ldw hb hu hi
  | expw k hu hi h16 => exact ha.expw hb hu hi h16
  | ldv hu =>
    obtain ⟨hh, hw⟩ := (State.agrees_ldv hb hu).mp ha
    exact Iff.mpr (State.agrees_rnd hb rfl) ⟨hh, hw, rfl⟩
  | rnd j hu hi => exact ha.rnd hb hu hi
  | ffwd hu => exact ha.ffwd hb hs hu

/-! ## Every step keeps it -/

/-- An accepted `HASH` leaves a state before `INIT`, or in ERROR, and of these the agreement says nothing. -/
theorem acceptHash_agrees (len : BitVec 64) (s : State) : (acceptHash len s).Agrees := by
  obtain ⟨-, ha⟩ | ⟨-, ha⟩ := acceptHash_cases len s
  · rw [ha]; exact State.agrees_init rfl rfl
  · rw [ha]; exact State.agrees_error rfl

/-- Settles O55: a micro-operation by its own lemma; a move of the host that changes no register because the agreement
looks at the first `LEN` message bytes alone. -/
theorem everyStepKeepsTheAgreementWithTheDigest : Obligations.EveryStepKeepsTheAgreementWithTheDigest := by
  intro s t hs ha h hmsg
  cases step_next h with
  | micro _ hb hm => exact hm.agrees hs.popMove hb ha
  | hash w len => exact acceptHash_agrees len s.popMove
  | reset => exact State.agrees_idle rfl
  | rest | write | bind => exact ha.congr ⟨rfl, rfl, rfl, rfl, rfl, rfl, rfl, rfl, rfl, rfl, rfl⟩ hmsg

end Sys2Proof.Machine
end

section
/-! The run of a whole operation (R190, R191): the 131 steps of a block are one step of the fold, and an accepted `HASH`
runs `INIT` and its blocks, BUSY until the last `FFWD`. -/

namespace Sys2Proof.Machine

/-! ## A run with no move of the host -/

theorem step_keeps_noMoves {s t : State} (hm : s.moves = []) (h : step s = .next t) : t.moves = [] := by
  rw [step_noMoves hm] at h
  obtain ⟨-, rfl⟩ | ⟨i, -, -, he⟩ := engineStep_cases h
  · exact hm
  · obtain ⟨-, -, -, -, -, hmoves⟩ := noInstructionChangesTheMessage i s t he
    exact hmoves.trans hm

theorem runSteps_split {s t : State} (hm : s.moves = []) {k d : Nat} (h : runSteps (k + d) s = .next t) :
    ∃ u, runSteps k s = .next u ∧ u.moves = [] ∧ runSteps d u = .next t := by
  induction k generalizing s with
  | zero => exact ⟨s, rfl, hm, by rwa [Nat.zero_add] at h⟩
  | succ k ih =>
    rw [Nat.add_right_comm] at h
    obtain ⟨s', hstep, hrun⟩ := runSteps_succ_inv h
    obtain ⟨u, hu, hmu, hd⟩ := ih (step_keeps_noMoves hm hstep) hrun
    exact ⟨u, (runSteps_succ k hstep).trans hu, hmu, hd⟩

/-- An engine that is BUSY after `k + d` steps was BUSY after `k`: once at rest it would have stayed there (R179). -/
theorem runSteps_busy_before {s t : State} (hm : s.moves = []) {k d : Nat} (h : runSteps (k + d) s = .next t)
    (hb : t.st = .busy) : ∃ u, runSteps k s = .next u ∧ u.st = .busy := by
  obtain ⟨u, hu, hmu, hd⟩ := runSteps_split hm h
  refine ⟨u, hu, by_contra fun hrest => ?_⟩
  cases (runSteps_rest hrest hmu d).symm.trans hd
  exact hrest hb

/-! ## The steps of one block -/

section
variable (s : State) (k : Nat) (w : Vector Word 64)

@[simp] theorem State.atWord_w : (s.atWord k w).w = w := rfl
@[simp] theorem State.atWord_n : (s.atWord k w).n = s.n := rfl
@[simp] theorem State.atWord_st : (s.atWord k w).st = s.st := rfl
@[simp] theorem State.atWord_moves : (s.atWord k w).moves = s.moves := rfl

end

/-- The state in which the current block is loaded and its schedule computed (R126, R145). -/
def State.blockScheduled (s : State) : State :=
  (s.setBlk (padOf s.message s.len s.n.toNat)).atWord 64 (expand (padOf s.message s.len s.n.toNat))

section
variable (s : State)

/-! By the lemmas of `atWord`, not by evaluation, which would unfold `expand`. -/

@[simp] theorem State.blockScheduled_w : s.blockScheduled.w = expand (padOf s.message s.len s.n.toNat) :=
  State.atWord_w _ _ _
@[simp] theorem State.blockScheduled_n : s.blockScheduled.n = s.n := State.atWord_n _ _ _
@[simp] theorem State.blockScheduled_st : s.blockScheduled.st = s.st := State.atWord_st _ _ _
@[simp] theorem State.blockScheduled_moves : s.blockScheduled.moves = s.moves := State.atWord_moves _ _ _

end

/-- From `PADBLK` of a block the engine comes to its `FFWD` in 130 steps: `PADBLK`, the scheduler's 64, `LDV`, and the
64 rounds. -/
theorem runSteps_toFfwd {s : State} (hb : s.st = .busy) (hm : s.moves = []) (hu : s.uop = .padblk) (hi : s.idx = 0)
    (hext : s.len.toNat ≤ s.msgExtent.val) (hnblk : s.nblk.toNat = nblkOf s.len.toNat) :
    runSteps 130 s = .next (s.blockScheduled.atRound 64) := by
  have hload : step s = .next ((s.setBlk (padOf s.message s.len s.n.toNat)).seq .ldw 0) := by
    rw [step_padblk hb hm hu hi (State.messageReadable_of_len_le hext), State.paddedBytes, hnblk]
    rfl
  have hschedule : runSteps 64 ((s.setBlk (padOf s.message s.len s.n.toNat)).seq .ldw 0) = .next s.blockScheduled :=
    schedulerRunComputesExpand _ hb rfl rfl hm
  have hb' : s.blockScheduled.st = .busy := s.blockScheduled_st.trans hb
  have hm' : s.blockScheduled.moves = [] := s.blockScheduled_moves.trans hm
  have hldv : step s.blockScheduled = .next (s.blockScheduled.atRound 0) :=
    step_ldv_atRound hb' hm' rfl rfl
  have hrounds : runSteps 64 (s.blockScheduled.atRound 0) = .next (s.blockScheduled.atRound 64) :=
    runSteps_atRound hb' hm' (Nat.le_refl 64)
  calc runSteps 130 s
      = runSteps 129 ((s.setBlk (padOf s.message s.len s.n.toNat)).seq .ldw 0) := runSteps_succ 129 hload
    _ = runSteps 65 s.blockScheduled := runSteps_add 64 65 hschedule
    _ = runSteps 64 (s.blockScheduled.atRound 0) := runSteps_succ 64 hldv
    _ = .next (s.blockScheduled.atRound 64) := hrounds

/-! ## The steps of all blocks -/

/-- The operation of `o` when it comes to `PADBLK` of block `n`: `H` is the fold over the blocks before, and `V`, `W`,
`BLK` are as in `u`. -/
def State.atBlock (o : State) (n : Nat) (u : State) : State :=
  { o with
    h := hashAfter o.message o.len n
    v := u.v
    w := u.w
    blk := u.blk
    n := narrowCount n
    uop := .padblk
    idx := 0 }

/-- An operation in progress on an available message of the domain, its block count set, with no move of the host to
come. -/
structure State.Running (o : State) : Prop where
  busy : o.st = .busy
  noMoves : o.moves = []
  domain : o.len.toNat < 2 ^ 61
  available : o.len.toNat ≤ o.msgExtent.val
  count : o.nblk.toNat = nblkOf o.len.toNat

section
variable {o : State} (ho : o.Running) {n : Nat} (hn : n < nblkOf o.len.toNat)
include ho hn

/-- The `FFWD` of block `n` adds the block to the fold (R156, R170). -/
theorem State.Running.step_ffwd (s : State) : step ((o.atBlock n s).blockScheduled.atRound 64) =
    .next ((o.atBlock (n + 1) ((o.atBlock n s).blockScheduled.atRound 64)).seqAfterFfwd n) := by
  have hcount : (o.atBlock n s).n.toNat = n := narrowCount_toNat (Nat.lt_trans hn (nblkOf_lt ho.domain))
  have hfold : compress (o.atBlock n s).blockScheduled.h (o.atBlock n s).blockScheduled.w =
      hashAfter o.message o.len (n + 1) := by
    rw [State.blockScheduled_w, hcount]
    rfl
  rw [step_atRound_ffwd (s := (o.atBlock n s).blockScheduled) ho.busy ho.noMoves, hfold, State.blockScheduled_n, hcount,
    State.seqAfterFfwd_eq, State.seqAfterFfwd_eq]
  rfl

/-- The 131 steps of block `n`: BUSY at its `FFWD`, which completes it. -/
theorem State.Running.runSteps_block (s : State) : ∃ u, runSteps 130 (o.atBlock n s) = .next u ∧ u.st = .busy ∧
    step u = .next ((o.atBlock (n + 1) u).seqAfterFfwd n) :=
  ⟨_, runSteps_toFfwd (s := o.atBlock n s) ho.busy ho.noMoves rfl rfl ho.available ho.count, ho.busy,
    ho.step_ffwd hn s⟩

/-- The operation comes to block `n` after 131 x `n` steps. -/
theorem State.Running.runSteps_atBlock (s : State) :
    ∃ u, runSteps (131 * n) (o.atBlock 0 s) = .next (o.atBlock n u) := by
  induction n with
  | zero => exact ⟨s, rfl⟩
  | succ n ih =>
    obtain ⟨s', hrun⟩ := ih (Nat.lt_of_succ_lt hn)
    obtain ⟨u, hblock, -, hffwd⟩ := ho.runSteps_block (Nat.lt_of_succ_lt hn) s'
    rw [State.seqAfterFfwd_more (ho.count.symm ▸ hn)] at hffwd
    refine ⟨u, ?_⟩
    rw [Nat.mul_succ, runSteps_add _ 131 hrun, runSteps_add 130 1 hblock]
    exact runSteps_one hffwd

end

/-- One step before the end of the last block the engine is BUSY; then it is DONE, with the digest in `H`. -/
theorem State.Running.runSteps_allBlocks {o : State} (ho : o.Running) (s : State) {k : Nat}
    (hk : 131 * nblkOf o.len.toNat = k + 1) :
    ∃ u t, runSteps k (o.atBlock 0 s) = .next u ∧ u.st = .busy ∧ step u = .next t ∧ t.st = .done ∧ t.err = o.err ∧
      t.h = digest o.message o.len ∧ t.msg = o.msg ∧ t.msgExtent = o.msgExtent := by
  obtain ⟨n, hlast⟩ := Nat.exists_eq_add_one_of_ne_zero (nblkOf_pos o.len.toNat).ne'
  have hn : n < nblkOf o.len.toNat := by omega
  obtain rfl : k = 131 * n + 130 := by omega
  obtain ⟨s', hrun⟩ := ho.runSteps_atBlock hn s
  obtain ⟨u, hblock, hb, hffwd⟩ := ho.runSteps_block hn s'
  rw [State.seqAfterFfwd_last (ho.count.symm ▸ by omega)] at hffwd
  have hdigest : hashAfter o.message o.len (n + 1) = digest o.message o.len := by rw [digest, hlast]
  exact ⟨u, _, (runSteps_add _ 130 hrun).trans hblock, hb, hffwd, rfl, rfl, hdigest, rfl, rfl⟩

/-! ## The operation -/

/-- What `INIT` leaves of an operation that `HASH len` started from `s`, with no move of the host to come (R172, R173). -/
def State.initialised (s : State) (len : BitVec 64) : State :=
  (((((s.setMoves []).setLen len).startOperation.setH IV).setN 0).setNblk (narrowCount (nblkOf len.toNat))).seq .padblk 0

theorem State.initialised_running {s : State} {len : BitVec 64} (hlen : len.toNat < 2 ^ 61)
    (hext : len.toNat ≤ s.msgExtent.val) : (s.initialised len).Running where
  busy := rfl
  noMoves := rfl
  domain := hlen
  available := hext
  count := narrowCount_toNat (nblkOf_lt hlen)

theorem step_hash_started {s : State} {len : BitVec 64} (hb : s.st ≠ .busy) (hlen : len.toNat < 2 ^ 61)
    (hext : len.toNat ≤ s.msgExtent.val) (hcap : len.toNat ≤ s.capBytes.val)
    (hm : s.moves = [.command (0b01#2 ++ len)]) :
    step s = .next ((s.setMoves []).setLen len).startOperation := by
  rw [step_hash hm, exec_hash_accepted (s := s.setMoves []) len hb,
    acceptHash_started (s := s.setMoves []) (lengthCheck_ok.mpr ⟨hlen, hext, hcap⟩)]

/-- Settles O56: after `HASH` and `INIT`, all blocks; BUSY before the last step, so BUSY all along. -/
theorem hashRunEndsWithTheDigest : Obligations.HashRunEndsWithTheDigest := by
  intro s len hb hlen hext hcap hm
  have hhash := step_hash_started hb hlen hext hcap hm
  have hinit : step ((s.setMoves []).setLen len).startOperation = .next ((s.initialised len).atBlock 0 s) :=
    step_init rfl rfl rfl rfl
  have hrunning : (s.initialised len).Running := State.initialised_running hlen hext
  obtain ⟨j, hj⟩ : ∃ j, 131 * nblkOf len.toNat = j + 1 :=
    Nat.exists_eq_add_one_of_ne_zero (by have := nblkOf_pos len.toNat; omega)
  obtain ⟨u, t, hrun, hbu, hlast, hst, herr, hh, hmsg, hmext⟩ := hrunning.runSteps_allBlocks s hj
  have hbefore : runSteps (j + 1) ((s.setMoves []).setLen len).startOperation = .next u :=
    (runSteps_succ j hinit).trans hrun
  rw [hj]
  constructor
  · intro k hk
    obtain ⟨d, hd⟩ := Nat.exists_eq_add_of_le (show k ≤ j + 1 by omega)
    rw [Nat.add_comm 1 k, runSteps_succ k hhash]
    exact runSteps_busy_before rfl (hd ▸ hbefore) hbu
  · refine ⟨t, ?_, hst, herr, hh, hmsg, hmext⟩
    rw [Nat.add_comm 1, runSteps_succ _ hhash, Nat.add_comm 1, runSteps_add _ 1 hbefore]
    exact runSteps_one hlast

end Sys2Proof.Machine
end

section
/-! The faults of 60_exceptions.md: fault entry (R204), and the same `HASH` presented again after its fault (R209). -/

namespace Sys2Proof.Machine

/-- Settles O32: fault entry is its four writes, and in ERROR the engine is at rest. -/
theorem faultEntryWritesErrStAndSequencer : Obligations.FaultEntryWritesErrStAndSequencer := by
  intro c s
  have hrest : (s.raiseFault c).st ≠ .busy := by simp
  exact ⟨rfl, rfl, fun hm => runSteps_rest hrest hm⟩

theorem lengthCheck_ne_of_acceptHash_error {len : BitVec 64} {s : State} (he : (acceptHash len s).st = .error) :
    lengthCheck len.toNat s.msgExtent.val s.capBytes.val ≠ .noError := by
  intro hc
  rw [acceptHash_started hc] at he
  cases he

/-- The fault leaves `MSG_EXTENT` and `CAP_BYTES`, so the check of the same length has the same outcome, and the writes
that follow from it find their values in place. -/
theorem acceptHash_repeated {len : BitVec 64} {s : State} (he : (acceptHash len s).st = .error) :
    acceptHash len (acceptHash len s) = acceptHash len s := by
  have hne := lengthCheck_ne_of_acceptHash_error he
  rw [acceptHash_faulted rfl hne]
  exact acceptHash_faulted (s := (s.setLen len).raiseFault _) rfl hne

/-- Settles O33: both times the `HASH` is accepted, and the second acceptance repeats the fault of the first. -/
theorem repeatedFaultIsTheSame : Obligations.RepeatedFaultIsTheSame := by
  intro len s t h he hb
  rw [exec_hash_accepted len hb] at h
  cases h
  have hnb : (acceptHash len s).st ≠ .busy := by simp [he]
  rw [exec_hash_accepted len hnb, acceptHash_repeated he]

end Sys2Proof.Machine
end

section
/-! The `RESET` input of 70_reset_and_hazards.md section 1: its step (R230), and that no step of the engine follows the
operation it abandons (R231, R179). -/

namespace Sys2Proof.Machine

/-- `RESET` has no condition: whatever the engine was doing, its step answers a next state (R230). -/
theorem step_reset {s : State} {ms : List Move} (h : s.moves = .reset :: ms) :
    step s = .next (s.setMoves ms).applyReset := step_move h

/-- The digest is valid in DONE only, which `RESET` leaves (R32, R231). -/
theorem State.digestValid_applyReset (s : State) : s.applyReset.digestValid = 0 := rfl

/-- With no move of the host to follow, the engine that a `RESET` idled is at rest (R179). -/
theorem runSteps_reset {s : State} (h : s.moves = [.reset]) (k : Nat) :
    runSteps (k + 1) s = .next (s.setMoves []).applyReset := by
  have hidle : (s.setMoves []).applyReset.st ≠ .busy := nofun
  exact (runSteps_succ k (step_reset h)).trans (runSteps_rest hidle rfl k)

/-- Settles O41: however many steps follow, the state is the one the `RESET` step answered. -/
theorem resetAbandonsTheOperation : Obligations.ResetAbandonsTheOperation :=
  fun _ h k => ⟨_, runSteps_reset h k, rfl, rfl, rfl, State.digestValid_applyReset _, rfl⟩

/-- Settles O40: the values left in the data registers are the ones `applyReset` draws. -/
theorem resetInputIdlesTheEngine : Obligations.ResetInputIdlesTheEngine :=
  fun _ _ h => ⟨_, _, _, _, _, _, _, _, step_reset h⟩

end Sys2Proof.Machine
end
